-- ==== Sys2Proof/Word.lean ====
section
/-! DEFINITION. The word types of the block: its registers, operands, buffers and command word, each with the one
width the spec gives it (00_scope R8, 30_encoding R71). All values are unsigned (R12). -/

namespace Sys2Proof

/-- R1, 19 bits (R20). -/
abbrev Reg1 := BitVec 19

/-- R2, 22 bits (R20). -/
abbrev Reg2 := BitVec 22

/-- R3, 23 bits (R20). -/
abbrev Reg3 := BitVec 23

/-- KEY[63:0]; KEY[63] is the first key bit consumed (R54). -/
abbrev Key := BitVec 64

/-- FRAME[21:0] (R55). -/
abbrev Frame := BitVec 22

/-- One direction's keystream; bit i is the i-th bit generated (R24, R51). -/
abbrev Keystream := BitVec 114

/-- CMD[3:0] (R71). -/
abbrev CmdWord := BitVec 4

end Sys2Proof
end

