-- ==== Sys2Proof/Config.lean ====
section
/-! DEFINITION. The build-time configuration (00_scope R10, 10_state R26): parameters, not state. The spec leaves their
values open, so the block's own configuration is a constant with no body (log entry 1). -/

namespace Sys2Proof

/-- LOAD_MODE: which loading procedure INIT runs (R10, 90_conflicts C1). -/
inductive LoadMode where
  | artifact
  | intended
deriving DecidableEq, Repr, Inhabited

/-- The configuration parameters of R10. A mask has exactly its register's width, and a clock-control bit position lies
inside its register, so an illegal configuration cannot be written (R11). -/
structure Config where
  taps1 : Reg1
  taps2 : Reg2
  taps3 : Reg3
  clkbit1 : Fin 19
  clkbit2 : Fin 22
  clkbit3 : Fin 23
  loadMode : LoadMode
deriving DecidableEq, Repr, Inhabited

/-- The configuration this block was built with. No value is given: whatever is proved of it holds for every legal
configuration (R10; 93_implementation_defined U1, U2, U3). DESIGN CHOICE, safe (log entry 1). -/
opaque Config.build : Config

/-- The default masks and bit positions of R10, for tests only. PRESUMED (general knowledge, 93_implementation_defined
G1, G2); no meaning uses it (log entry 1). -/
def Config.withDefaults (mode : LoadMode) : Config :=
  { taps1 := 0x072000, taps2 := 0x300000, taps3 := 0x700080
    clkbit1 := 8, clkbit2 := 10, clkbit3 := 10, loadMode := mode }

/-- A configuration as an integrator writes it down, before elaboration checks it (R11). -/
structure RawConfig where
  taps1 : Nat
  taps2 : Nat
  taps3 : Nat
  clkbit1 : Nat
  clkbit2 : Nat
  clkbit3 : Nat
  loadMode : LoadMode
deriving DecidableEq, Repr

end Sys2Proof
end

