-- ==== Sys2Proof/Syntax.lean ====
section
/-! DEFINITION. The commands (30_encoding R70, opcode_table.json), the words on the command port (R71, R79), and the
lines of the assembler (R79, R80). -/

namespace Sys2Proof

/-- The five commands of R70, one constructor per row of the opcode table. INIT carries the values its KEY and FRAME
ports hold when it is accepted (R72); STEP.M and STEP.F are the two values of STEP's forceAll operand. -/
inductive Instr where
  | nop
  | init (key : Key) (frame : Frame)
  | gen
  | stepM
  | stepF
deriving DecidableEq, Repr

/-- What the host presents for one command: the (CMD, KEY, FRAME) triple of R79. -/
structure Command where
  cmd : CmdWord
  key : Key
  frame : Frame
deriving DecidableEq, Repr, Inhabited

/-- The verdict of R76 on a legal command word alone, before the operand ports are read. -/
inductive Op where
  | nop
  | init
  | gen
  | step (forceAll : Bool)
deriving DecidableEq, Repr

/-- A hexadecimal literal of R79: its digits, most significant first. -/
abbrev HexLit := List (Fin 16)

/-- One line of a command program: the mnemonics of R79 and the pseudo-instructions of R80. -/
inductive AsmLine where
  | nop
  | init (key frame : HexLit)
  | gen
  | stepM
  | stepF
  /-- `.cmd <n>`: a raw command word, illegal words included. -/
  | cmd (n : Nat)
  /-- The pseudo-instruction `STEP`. -/
  | step
  /-- The pseudo-instruction `SESSION <key>, <frame>`. -/
  | session (key frame : HexLit)
deriving DecidableEq, Repr

end Sys2Proof
end

