-- ==== Sys2Proof/WellFormed.lean ====
section
/-! DEFINITION. The well-formedness checks the spec gives. `Instr` has none: its operands have their ports' widths, so a
malformed key or frame cannot be written (30_encoding R73, 60_exceptions R224). What can be ill-formed is a command word
(R71), a line of the assembler (R79) and a configuration before elaboration (00_scope R11). -/

namespace Sys2Proof

/-- R71: RSV is 0, and F is 0 unless OP is 11. -/
def Command.wf (p : Command) : Bool :=
  !p.cmd.getLsbD 3 && (!p.cmd.getLsbD 2 || p.cmd.extractLsb' 0 2 == 3#2)

/-- The value of a hexadecimal literal. -/
def hexValue (digits : HexLit) : Nat := digits.foldl (fun acc d => 16 * acc + d.val) 0

/-- R79: a key literal has at most 16 digits. A literal has at least one. -/
def keyLiteralOk (digits : HexLit) : Bool := decide (1 ≤ digits.length ∧ digits.length ≤ 16)

/-- R79: a frame literal has at most 6 digits and a value below 2^22. -/
def frameLiteralOk (digits : HexLit) : Bool :=
  decide (1 ≤ digits.length ∧ digits.length ≤ 6 ∧ hexValue digits < 2 ^ 22)

/-- R79: the literals of a line fit their ports. -/
def AsmLine.wf : AsmLine → Bool
  | .nop => true
  | .init key frame => keyLiteralOk key && frameLiteralOk frame
  | .gen => true
  | .stepM => true
  | .stepF => true
  | .cmd n => decide (n ≤ 15)
  | .step => true
  | .session key frame => keyLiteralOk key && frameLiteralOk frame

/-- R11: each mask fits its register and each clock-control bit lies inside it. -/
abbrev RawConfig.WellFormed (r : RawConfig) : Prop :=
  (r.taps1 < 2 ^ 19 ∧ r.taps2 < 2 ^ 22 ∧ r.taps3 < 2 ^ 23) ∧ r.clkbit1 < 19 ∧ r.clkbit2 < 22 ∧ r.clkbit3 < 23

end Sys2Proof
end

