-- ==== Sys2Proof/Decode.lean ====
section
/-! DEFINITION. Decoding a command (30_encoding R71, R72, R75, R76), total on every word and rejecting by name (R77), and
the encoder written from the same tables (R75, R79). -/

namespace Sys2Proof

/-- Why a command word is illegal (R75, R77). -/
inductive IllegalWord where
  /-- RSV = 1: the words 0x8 to 0xF. -/
  | reservedBitSet
  /-- F = 1 with OP ≠ 11: the words 0x4, 0x5 and 0x6. -/
  | forceWithoutStep
deriving DecidableEq, Repr

/-- The field OP = CMD[1:0] (R71). -/
def opField (w : CmdWord) : BitVec 2 := w.extractLsb' 0 2

/-- The field F = CMD[2], forceAll for STEP (R71, R72). -/
def forceField (w : CmdWord) : Bool := w.getLsbD 2

/-- The field RSV = CMD[3] (R71). -/
def reservedField (w : CmdWord) : Bool := w.getLsbD 3

/-- R76, on the command word alone. -/
def decodeWord (w : CmdWord) : Except IllegalWord Op :=
  if reservedField w then .error .reservedBitSet
  else if forceField w && opField w != 3#2 then .error .forceWithoutStep
  else if opField w = 0#2 then .ok .nop
  else if opField w = 1#2 then .ok .init
  else if opField w = 2#2 then .ok .gen
  else .ok (.step (forceField w))

/-- R72: INIT takes KEY and FRAME whole from their ports; every other command ignores them. -/
def Op.withOperands (o : Op) (p : Command) : Instr :=
  match o with
  | .nop => .nop
  | .init => .init p.key p.frame
  | .gen => .gen
  | .step true => .stepF
  | .step false => .stepM

/-- The instruction the block reads from a (CMD, KEY, FRAME) triple, or why the word is illegal (R76). -/
def decode (p : Command) : Except IllegalWord Instr :=
  match decodeWord p.cmd with
  | .ok o => .ok (o.withOperands p)
  | .error e => .error e

/-- The triple of R79: the word of R75, with KEY and FRAME driven to 0 for every command but INIT. -/
def encode : Instr → Command
  | .nop => { cmd := 0x0#4, key := 0#64, frame := 0#22 }
  | .init key frame => { cmd := 0x1#4, key := key, frame := frame }
  | .gen => { cmd := 0x2#4, key := 0#64, frame := 0#22 }
  | .stepM => { cmd := 0x3#4, key := 0#64, frame := 0#22 }
  | .stepF => { cmd := 0x7#4, key := 0#64, frame := 0#22 }

/-- The triple as one number: CMD in bits 3:0, KEY in bits 67:4, FRAME in bits 89:68 (log entry 11, DESIGN CHOICE: the
ports are separate wires, and the order is R79's). -/
def Command.bits (p : Command) : BitVec 90 := p.frame ++ p.key ++ p.cmd

/-- The triple a number of `Command.bits`'s layout stands for. -/
def Command.ofBits (b : BitVec 90) : Command :=
  { cmd := b.extractLsb' 0 4, key := b.extractLsb' 4 64, frame := b.extractLsb' 68 22 }

/-- The triple of an instruction whose low `nbits` bits are `w`, every bit above them 0. -/
def tableCommand (nbits w : Nat) : Command := Command.ofBits (BitVec.ofNat 90 (w % 2 ^ nbits))

/-- The instruction the decoder reads from an opcode-table word; none where the word is illegal. -/
def decodeTableWord (nbits w : Nat) : Option Instr :=
  match decode (tableCommand nbits w) with
  | .ok i => some i
  | .error _ => none

end Sys2Proof
end

