-- ==== Sys2Proof/Machine/State.lean ====
section
/-! DEFINITION. The machine's state (10_state R35, R36) and its state right after reset (R35, 70_reset_and_hazards R250).
It is plain data: the CipherState, the two output buffers, the status flags, the sequencer's hidden state (R30, R32), and
the input-port values the host will drive. -/

namespace Sys2Proof.Machine

/-- The CipherState: the triple (R1, R2, R3) (R20). Each register has its own width, so the width invariant R21 holds of
every value of the type. -/
structure CipherState where
  r1 : Reg1
  r2 : Reg2
  r3 : Reg3
deriving DecidableEq, Repr, Inhabited

/-- ERRCODE (R28, 60_exceptions R221). Code 3 is reserved and never written, so it has no constructor
(93_implementation_defined U7, log entry 10). -/
inductive ErrCode where
  | none
  | illegalCmd
  | notKeyed
deriving DecidableEq, Repr, Inhabited

/-- PHASE, the sequencer's phase (R30). -/
inductive Phase where
  | idle
  | keyload
  | frame
  | discard
  | genDl
  | genUl
  | step
  | unit
deriving DecidableEq, Repr, Inhabited

/-- The values on the block's input ports at one clock edge (30_encoding R74); CMD, KEY and FRAME are `offer`. -/
structure InPorts where
  rst : Bool
  cmdValid : Bool
  offer : Command
deriving DecidableEq, Repr, Inhabited

/-- The block's state, every piece of R35, and what the host drives.

BUSY is the view PHASE ≠ IDLE (R30) and STATUS[7:6] always read 0 (R28), so neither is stored. `cmdL` and `inputs` are the
model's own fields (log entries 3 and 8). -/
structure State where
  /-- R1, R2, R3 (R20). -/
  cipher : CipherState
  /-- KS_DL[0..113] (R24). -/
  ksDl : Keystream
  /-- KS_UL[0..113] (R24). -/
  ksUl : Keystream
  /-- KEYED (R28, R31). -/
  keyed : Bool
  /-- DONE (R28). -/
  done : Bool
  /-- ERR, sticky (R28, R236). -/
  err : Bool
  /-- ERRCODE (R28, R221). -/
  errcode : ErrCode
  /-- PHASE (R30). -/
  phase : Phase
  /-- CNT (R30). -/
  cnt : BitVec 8
  /-- KEY_L (R32). -/
  keyL : Key
  /-- FRAME_L (R32). -/
  frameL : Frame
  /-- The command word of the running command, sampled at acceptance (R65, R190) and forgotten at completion (R221: "the
  word itself is not recorded"). DESIGN CHOICE (log entry 3). -/
  cmdL : CmdWord
  /-- What the host drives next, oldest first; empty means no offer and no reset. DESIGN CHOICE (log entry 8). -/
  inputs : List InPorts
deriving DecidableEq, Repr, Inhabited

/-- Why the machine could stop with a fault. The spec gives no fault: "The block has no behaviour that is `fault` or
`stuck`" (93_implementation_defined, R196, R220), so the type has no constructor. -/
inductive Fault where
deriving DecidableEq, Repr

/-- Why the model could refuse an instruction. -/
inductive Refusal where
  /-- Raised only by an arm of exec whose instruction has no meaning yet; no arm is left so. Safe. -/
  | notModelled (mnemonic : String)
deriving DecidableEq, Repr

/-- The all-zero CipherState (R141). -/
def CipherState.zero : CipherState := { r1 := 0#19, r2 := 0#22, r3 := 0#23 }

/-- The state right after reset: R35's table, and a host that drives nothing. -/
def State.reset : State :=
  { cipher := CipherState.zero, ksDl := 0#114, ksUl := 0#114
    keyed := false, done := false, err := false, errcode := .none
    phase := .idle, cnt := 0#8, keyL := 0#64, frameL := 0#22
    cmdL := 0#4, inputs := [] }

/-- The state before the first reset edge: any value (70_reset_and_hazards R253, 93_implementation_defined U4). A free
value: no body, so nothing can be proved of it but what holds of every state (log entry 5). -/
opaque State.powerUp : State

end Sys2Proof.Machine
end

