-- ==== Sys2Proof/Machine/Flags.lean ====
section
/-! DEFINITION. The flags: BUSY and CMD_READY, the bits of ERRCODE, the sticky ERR, and the STATUS word (10_state R28,
R29, R30; 60_exceptions R221, R236). No datapath operation sets a flag (R29). -/

namespace Sys2Proof.Machine

/-- BUSY = (PHASE ≠ IDLE) (R30). -/
def State.busy (s : State) : Bool := s.phase != .idle

/-- CMD_READY = NOT BUSY (R28, R74). -/
def State.cmdReady (s : State) : Bool := !s.busy

/-- The code of R221 in STATUS[5:4]. -/
def ErrCode.bits : ErrCode → BitVec 2
  | .none => 0#2
  | .illegalCmd => 1#2
  | .notKeyed => 2#2

/-- R192, R236: ERR <- ERR | (code ≠ 0). -/
def errAfter (err : Bool) (code : ErrCode) : Bool := err || code != .none

/-- STATUS = {reserved[7:6], ERRCODE[5:4], ERR[3], KEYED[2], DONE[1], BUSY[0]} (R28). -/
def State.status (s : State) : BitVec 8 :=
  0#2 ++ s.errcode.bits ++ BitVec.ofBool s.err ++ BitVec.ofBool s.keyed ++ BitVec.ofBool s.done ++ BitVec.ofBool s.busy

end Sys2Proof.Machine
end

