-- ==== Sys2Proof/Machine/Ops.lean ====
section
/-! DEFINITION. The shared operations: bits of a word, a register's shift, a buffer's write, the loop of R15, and the
sequencer's acceptance, completion and reset. A command that fails completes through the same operation as one that
succeeds: the block has no trap entry, and nothing is saved (60_exceptions R220, R227). -/

namespace Sys2Proof.Machine

/-- ((r << 1) & MASK(k)) | b: the shift of R102, R104, R142 and R145, with the incoming bit b. The word's width is its
mask. -/
def shiftIn {w : Nat} (r : BitVec w) (b : Bool) : BitVec w :=
  (r <<< 1) ||| (BitVec.ofBool b).setWidth w

/-- BUF[i] <- b (R14, R24). -/
def setBit {w : Nat} (v : BitVec w) (i : Nat) (b : Bool) : BitVec w :=
  (v &&& ~~~(1#w <<< i)) ||| ((BitVec.ofBool b).setWidth w <<< i)

/-- `n` iterations of a loop body, with indexes i, i + 1, … in increasing order (R15). -/
def iter {α : Type} (body : Nat → α → α) : (n i : Nat) → α → α
  | 0, _, a => a
  | n + 1, i, a => iter body n (i + 1) (body i a)

/-- The values after each iteration of `iter`, in order (R197). -/
def scan {α : Type} (body : Nat → α → α) : (n i : Nat) → α → List α
  | 0, _, _ => []
  | n + 1, i, a => body i a :: scan body n (i + 1) (body i a)

/-- A word given bit by bit. -/
def bitsOf (w : Nat) (f : Nat → Bool) : BitVec w := iter (fun i v => setBit v i (f i)) w 0 0#w

/-- XOR, register by register: addition in GF(2) (R13, R127). -/
def CipherState.xor (a b : CipherState) : CipherState :=
  { r1 := a.r1 ^^^ b.r1, r2 := a.r2 ^^^ b.r2, r3 := a.r3 ^^^ b.r3 }

/-- The sequencer enters a phase with CNT = 0 (R30, R262). -/
def State.enter (s : State) (ph : Phase) : State := { s with phase := ph, cnt := 0#8 }

/-- The code an accepted command ends with (R221): an illegal word fails (R222), and so does a GEN with KEYED = 0 (R223).
Decode comes first (R226). -/
def commandCode (w : CmdWord) (keyed : Bool) : ErrCode :=
  match decodeWord w with
  | .error _ => .illegalCmd
  | .ok .gen => if keyed then .none else .notKeyed
  | .ok _ => .none

/-- The sampling at the accepting edge (R190): CMD is held in CMD_L while the command runs (log entry 3), and KEY and
FRAME are latched into KEY_L and FRAME_L. A command that fails leaves the two latches, since it changes nothing but DONE,
ERRCODE and ERR (R227; log entry 2). -/
def State.sample (s : State) (p : Command) : State :=
  { s with
    cmdL := p.cmd
    keyL := if commandCode p.cmd s.keyed = .none then p.key else s.keyL
    frameL := if commandCode p.cmd s.keyed = .none then p.frame else s.frameL }

/-- Completion (R192): BUSY <- 0, DONE <- 1, ERRCODE <- code, ERR <- ERR | (code ≠ 0). A command that ends in error
changes nothing else (R227). PHASE is IDLE (R262), and CNT and CMD_L are 0 (log entries 4 and 3). -/
def State.complete (s : State) (code : ErrCode) : State :=
  { s.enter .idle with done := true, errcode := code, err := errAfter s.err code, cmdL := 0#4 }

/-- The effect of an edge with rst = 1: every piece of the block's state takes its reset value (R250). What the host
drives is not the block's. -/
def State.resetBlock (s : State) : State := { State.reset with inputs := s.inputs }

end Sys2Proof.Machine
end

