-- ==== Sys2Proof/Machine/Lfsr.lean ====
section
/-! DEFINITION. The Bit-Parity Unit and the LFSR advance (40_parity_lfsr R100 to R107). Pure functions: they write no
state and no flag and cannot fail. -/

namespace Sys2Proof.Machine

/-- v[0] ^ v[1] ^ ... ^ v[n-1]. -/
def xorBits {w : Nat} (v : BitVec w) : Nat → Bool
  | 0 => false
  | n + 1 => xorBits v n ^^ v.getLsbD n

/-- parity(v) = v[0] ^ v[1] ^ ... ^ v[N-1] (R100). -/
def parity {w : Nat} (v : BitVec w) : Bool := xorBits v w

/-- popcount(v): the number of set bits of v (R13). -/
def popcount {w : Nat} (v : BitVec w) : Nat := ((List.range w).filter (fun i => v.getLsbD i)).length

/-- advance (R102) for a register whose tap mask is `taps`: the feedback bit is read before the shift. TAPS_k[j] = 1
means bit j feeds the parity (R106). -/
def advance {w : Nat} (taps r : BitVec w) : BitVec w := shiftIn r (parity (r &&& taps))

/-- advance_inj (R104): the incoming bit is XORed with the injected bit f. -/
def advanceInj {w : Nat} (taps r : BitVec w) (f : Bool) : BitVec w := shiftIn r (parity (r &&& taps) ^^ f)

/-- advance(1, r). -/
def advance1 (c : Config) (r : Reg1) : Reg1 := advance c.taps1 r

/-- advance(2, r). -/
def advance2 (c : Config) (r : Reg2) : Reg2 := advance c.taps2 r

/-- advance(3, r). -/
def advance3 (c : Config) (r : Reg3) : Reg3 := advance c.taps3 r

end Sys2Proof.Machine
end

