-- ==== Sys2Proof/Machine/ClockControl.lean ====
section
/-! DEFINITION. The Clock-Control Unit and the commands STEP.M and STEP.F (41_clock_control R120 to R128). -/

namespace Sys2Proof.Machine

/-- c1 = bit(R1, CLKBIT1) (R120). -/
def clockBit1 (c : Config) (s : CipherState) : Bool := s.r1.getLsbD c.clkbit1

/-- c2 = bit(R2, CLKBIT2) (R120). -/
def clockBit2 (c : Config) (s : CipherState) : Bool := s.r2.getLsbD c.clkbit2

/-- c3 = bit(R3, CLKBIT3) (R120). -/
def clockBit3 (c : Config) (s : CipherState) : Bool := s.r3.getLsbD c.clkbit3

/-- majority(a, b, c) = (a & b) | (a & c) | (b & c) (R121). -/
def majority (a b c : Bool) : Bool := (a && b) || (a && c) || (b && c)

/-- The majority bit of a CipherState, read before any register advances (R120, R122). -/
def majorityBit (c : Config) (s : CipherState) : Bool := majority (clockBit1 c s) (clockBit2 c s) (clockBit3 c s)

/-- step(s, forceAll) (R122): a register advances when forceAll is set or its clock-control bit equals the majority, and
holds otherwise. All three right-hand sides read the state before the micro-step. -/
def clockStep (c : Config) (s : CipherState) (forceAll : Bool) : CipherState :=
  { r1 := if forceAll || clockBit1 c s == majorityBit c s then advance1 c s.r1 else s.r1
    r2 := if forceAll || clockBit2 c s == majorityBit c s then advance2 c s.r2 else s.r2
    r3 := if forceAll || clockBit3 c s == majorityBit c s then advance3 c s.r3 else s.r3 }

/-- One STEP command: one micro-step, then a normal completion. KEYED, ERR and the buffers are unchanged (R125, R126). -/
def runStepCommand (c : Config) (forceAll : Bool) (s : State) : State :=
  { s with cipher := clockStep c s.cipher forceAll }.complete .none

/-- STEP.M (R125). -/
def execStepM (s : State) : Host.Outcome State Fault Refusal := .next (runStepCommand Config.build false s)

/-- STEP.F (R126). -/
def execStepF (s : State) : Host.Outcome State Fault Refusal := .next (runStepCommand Config.build true s)

end Sys2Proof.Machine
end

