-- ==== Sys2Proof/Machine/Generator.lean ====
section
/-! DEFINITION. The Keystream Generator and the command GEN (43_keystream_generator R170 to R177). -/

namespace Sys2Proof.Machine

/-- outbit(s) = R1[18] ^ R2[21] ^ R3[22] (R172). -/
def outbit (s : CipherState) : Bool := s.r1.getLsbD 18 ^^ s.r2.getLsbD 21 ^^ s.r3.getLsbD 22

/-- One generation cycle: sample the output bit into BUF[i], then step by majority (R171). -/
def genCycle (c : Config) (i : Nat) (x : Keystream × CipherState) : Keystream × CipherState :=
  (setBit x.1 i (outbit x.2), clockStep c x.2 false)

/-- One direction of GEN: 114 cycles (R170). -/
def genDirection (c : Config) (buf : Keystream) (s : CipherState) : Keystream × CipherState :=
  iter (genCycle c) 114 0 (buf, s)

/-- GEN's completion: KEYED <- 0, DONE <- 1, ERRCODE <- 0 (R170, R192). The registers stay (R177). -/
def State.finishGen (s : State) : State := { s.complete .none with keyed := false }

/-- GEN as one transition (R170, R196): NOT_KEYED when KEYED = 0 (R223), else downlink then uplink from one evolving
state (R173). -/
def runGen (c : Config) (s : State) : State :=
  if s.keyed then
    let dl := genDirection c s.ksDl s.cipher
    let ul := genDirection c s.ksUl dl.2
    { s with ksDl := dl.1, ksUl := ul.1, cipher := ul.2 }.finishGen
  else s.complete .notKeyed

/-- GEN (R170). -/
def execGen (s : State) : Host.Outcome State Fault Refusal := .next (runGen Config.build s)

end Sys2Proof.Machine
end

