-- ==== Sys2Proof/Machine/Interface.lean ====
section
/-! DEFINITION. The command NOP and the path of an illegal word (44_command_interface R194; 30_encoding R77,
60_exceptions R222). Neither has a micro-step. -/

namespace Sys2Proof.Machine

/-- NOP (R194): a normal completion and nothing else. -/
def execNop (s : State) : Host.Outcome State Fault Refusal := .next (s.complete .none)

/-- An illegal word (R222): DONE <- 1, ERRCODE <- 1, ERR <- 1, and nothing else. -/
def runIllegal (s : State) : State := s.complete .illegalCmd

end Sys2Proof.Machine
end

