-- ==== Sys2Proof/Machine/Operands.lean ====
section
/-! DEFINITION. Which operand bit each micro-step reads (30_encoding R72; 20_memory R54, R55; 42_key_frame_loader R142,
R145, R146). KEY and FRAME come whole from their ports; forceAll is the bit F of CMD. -/

namespace Sys2Proof.Machine

/-- ARTIFACT mode: micro-step i (from 0) shifts KEY[63 - i] into every register (R142). -/
def keyBitArtifact (key : Key) (i : Nat) : Bool := key.getLsbD (63 - i)

/-- INTENDED mode: micro-step i shifts KEY[63 - i] into R1 (R145). -/
def keyBitIntended1 (key : Key) (i : Nat) : Bool := key.getLsbD (63 - i)

/-- INTENDED mode: micro-step i shifts KEY[44 - i] into R2 (R145). -/
def keyBitIntended2 (key : Key) (i : Nat) : Bool := key.getLsbD (44 - i)

/-- INTENDED mode: micro-step i shifts KEY[22 - i] into R3 (R145). -/
def keyBitIntended3 (key : Key) (i : Nat) : Bool := key.getLsbD (22 - i)

/-- Frame mixing: iteration i uses FRAME[i], least significant bit first (R146). -/
def frameBit (frame : Frame) (i : Nat) : Bool := frame.getLsbD i

end Sys2Proof.Machine
end

