-- ==== Sys2Proof/Machine/Loader.lean ====
section
/-! DEFINITION. The Key/Frame Loader and the command INIT (42_key_frame_loader R140 to R153), both loading procedures. -/

namespace Sys2Proof.Machine

/-- One ARTIFACT key-loading micro-step: every register shifts in KEY[63 - i], with no feedback (R142). -/
def artifactKeyStep (key : Key) (i : Nat) (s : CipherState) : CipherState :=
  { r1 := shiftIn s.r1 (keyBitArtifact key i)
    r2 := shiftIn s.r2 (keyBitArtifact key i)
    r3 := shiftIn s.r3 (keyBitArtifact key i) }

/-- ARTIFACT key loading from the zeroed registers: 64 micro-steps (R141, R142). -/
def keyloadArtifact (key : Key) : CipherState := iter (artifactKeyStep key) 64 0 CipherState.zero

/-- One INTENDED key-loading micro-step: R1 shifts while i < 19, R2 while i < 22, R3 in all 23; a register whose slice
is finished holds (R145). -/
def intendedKeyStep (key : Key) (i : Nat) (s : CipherState) : CipherState :=
  { r1 := if i < 19 then shiftIn s.r1 (keyBitIntended1 key i) else s.r1
    r2 := if i < 22 then shiftIn s.r2 (keyBitIntended2 key i) else s.r2
    r3 := shiftIn s.r3 (keyBitIntended3 key i) }

/-- INTENDED key loading from the zeroed registers, in the trace's order: 23 micro-steps (R145). -/
def keyloadIntended (key : Key) : CipherState := iter (intendedKeyStep key) 23 0 CipherState.zero

/-- One register's loop of R145's specification form: the pair is the register and the cursor c. -/
def cursorLoad {w : Nat} (key : Key) (r : BitVec w) (cursor : Nat) : BitVec w × Nat :=
  iter (fun _ x => (shiftIn x.1 (key.getLsbD x.2), x.2 - 1)) w 0 (r, cursor)

/-- R145's specification form: one cursor runs through the key from bit 63, register by register. -/
def keyloadIntendedCursor (key : Key) : CipherState :=
  let x1 := cursorLoad key CipherState.zero.r1 63
  let x2 := cursorLoad key CipherState.zero.r2 x1.2
  let x3 := cursorLoad key CipherState.zero.r3 x2.2
  { r1 := x1.1, r2 := x2.1, r3 := x3.1 }

/-- One frame-mixing iteration: every register advances with FRAME[i] injected, whatever its control bit (R146). -/
def frameMixStep (c : Config) (frame : Frame) (i : Nat) (s : CipherState) : CipherState :=
  { r1 := advanceInj c.taps1 s.r1 (frameBit frame i)
    r2 := advanceInj c.taps2 s.r2 (frameBit frame i)
    r3 := advanceInj c.taps3 s.r3 (frameBit frame i) }

/-- Frame mixing: 22 iterations (R146). -/
def frameMix (c : Config) (frame : Frame) (s : CipherState) : CipherState := iter (frameMixStep c frame) 22 0 s

/-- The discard phase: 100 forced steps, no output (R147). -/
def discardPhase (c : Config) (s : CipherState) : CipherState := iter (fun _ x => clockStep c x true) 100 0 s

/-- The CipherState INIT loads (R140): R141 to R144 in ARTIFACT mode, where FRAME has no effect; R141, R145, R146, R147
in INTENDED mode. -/
def initCipher (c : Config) (key : Key) (frame : Frame) : CipherState :=
  match c.loadMode with
  | .artifact => keyloadArtifact key
  | .intended => discardPhase c (frameMix c frame (keyloadIntended key))

/-- What INIT does at its accepting edge besides the sampling: R1 to R3 are zeroed, and KS_DL, KS_UL and KEYED are
cleared (R141, R153, R262). -/
def State.beginInit (s : State) : State :=
  { s with cipher := CipherState.zero, ksDl := 0#114, ksUl := 0#114, keyed := false }

/-- INIT's completion: KEYED <- 1, DONE <- 1, ERRCODE <- 0 (R140, R192). -/
def State.finishInit (s : State) : State := { s.complete .none with keyed := true }

/-- INIT as one transition (R140, R196). KEY and FRAME are read from the command, and the latches hold them (R32). -/
def runInit (c : Config) (key : Key) (frame : Frame) (s : State) : State :=
  { s.beginInit with cipher := initCipher c key frame, keyL := key, frameL := frame }.finishInit

/-- INIT (R140). -/
def execInit (key : Key) (frame : Frame) (s : State) : Host.Outcome State Fault Refusal :=
  .next (runInit Config.build key frame s)

end Sys2Proof.Machine
end

