-- ==== Sys2Proof/Machine/Cycle.lean ====
section
/-! DEFINITION. The cycle-level machine: one clock edge (30_encoding R74; 44_command_interface R190 to R192;
70_reset_and_hazards R250, R262), the nominal schedule of R262 with PHASE and CNT. An implementation may take more
cycles (R263, log entry 6). -/

namespace Sys2Proof.Machine

/-- Micro-steps of the KEYLOAD phase: 64 or 23 (R142, R145, R262). -/
def keyloadCount (c : Config) : Nat :=
  match c.loadMode with
  | .artifact => 64
  | .intended => 23

/-- Edges the sequencer spends in each phase (R262). -/
def phaseCount (c : Config) : Phase → Nat
  | .idle => 0
  | .keyload => keyloadCount c
  | .frame => 22
  | .discard => 100
  | .genDl => 114
  | .genUl => 114
  | .step => 1
  | .unit => 1

/-- The key-loading micro-step of the configured mode. -/
def keyloadStep (c : Config) (key : Key) (i : Nat) (s : CipherState) : CipherState :=
  match c.loadMode with
  | .artifact => artifactKeyStep key i s
  | .intended => intendedKeyStep key i s

/-- The micro-step an edge performs in the current phase, with index CNT (R262). UNIT has none. -/
def State.microStep (c : Config) (s : State) : State :=
  match s.phase with
  | .idle => s
  | .keyload => { s with cipher := keyloadStep c s.keyL s.cnt.toNat s.cipher }
  | .frame => { s with cipher := frameMixStep c s.frameL s.cnt.toNat s.cipher }
  | .discard => { s with cipher := clockStep c s.cipher true }
  | .genDl => { s with ksDl := setBit s.ksDl s.cnt.toNat (outbit s.cipher), cipher := clockStep c s.cipher false }
  | .genUl => { s with ksUl := setBit s.ksUl s.cnt.toNat (outbit s.cipher), cipher := clockStep c s.cipher false }
  | .step => { s with cipher := clockStep c s.cipher (forceField s.cmdL) }
  | .unit => s

/-- What follows the last edge of the current phase: the next phase, or the command's completion (R192, R262). -/
def State.phaseEnd (c : Config) (s : State) : State :=
  match s.phase with
  | .idle => s
  | .keyload =>
    match c.loadMode with
    | .artifact => s.finishInit
    | .intended => s.enter .frame
  | .frame => s.enter .discard
  | .discard => s.finishInit
  | .genDl => s.enter .genUl
  | .genUl => s.finishGen
  | .step => s.complete .none
  | .unit => s.complete (commandCode s.cmdL s.keyed)

/-- An edge with BUSY = 1: one micro-step; then CNT counts on, or the phase ends (R262). It reads no input port but rst
(R191). -/
def busyEdge (c : Config) (s : State) : State :=
  if s.cnt.toNat + 1 < phaseCount c s.phase then
    { s.microStep c with cnt := s.cnt + 1#8 }
  else (s.microStep c).phaseEnd c

/-- The phase a command's first edge is spent in (R262): GEN is refused when KEYED = 0, decided after decode (R226). -/
def firstPhase (w : CmdWord) (keyed : Bool) : Phase :=
  match decodeWord w with
  | .error _ => .unit
  | .ok .nop => .unit
  | .ok .init => .keyload
  | .ok .gen => if keyed then .genDl else .unit
  | .ok (.step _) => .step

/-- The accepting edge (R190, R262): the ports are sampled, DONE <- 0, BUSY <- 1, and an INIT clears at once (R153). -/
def acceptEdge (p : Command) (s : State) : State :=
  let s' := if decodeWord p.cmd = .ok .init then (s.sample p).beginInit else s.sample p
  { s'.enter (firstPhase p.cmd s.keyed) with done := false }

/-- One rising edge of clk. Reset comes first; a command is accepted only when BUSY = 0 (R226, R250, R190, R191);
otherwise an idle block keeps every piece of state (R235). -/
def clockEdge (c : Config) (p : InPorts) (s : State) : State :=
  if p.rst then s.resetBlock
  else if s.busy then busyEdge c s
  else if p.cmdValid then acceptEdge p.offer s
  else s

/-- Consecutive edges, the ports at each given in order. -/
def runEdges (c : Config) (ports : List InPorts) (s : State) : State :=
  ports.foldl (fun x p => clockEdge c p x) s

/-- L of R262: edges from acceptance to completion, max(N, 1). -/
def commandCycles (c : Config) (w : CmdWord) (keyed : Bool) : Nat :=
  match decodeWord w with
  | .error _ => 1
  | .ok .nop => 1
  | .ok .init =>
    match c.loadMode with
    | .artifact => 64
    | .intended => 145
  | .ok .gen => if keyed then 228 else 1
  | .ok (.step _) => 1

/-- The running command, if any, run to its completion with no reset: no command takes more than 228 edges (R262), and a
busy edge of an idle block changes nothing. Irreducible, so that no tactic unrolls its 228 edges. -/
@[irreducible] def finishRunning (c : Config) (s : State) : State := iter (fun _ x => if x.busy then busyEdge c x else x) 228 0 s

end Sys2Proof.Machine
end

