-- ==== Sys2Proof/Machine/Dispatch.lean ====
section
/-! DEFINITION. exec: one arm per command (44_command_interface R196). An illegal word is no instruction; its path is
Machine/Transaction.lean's. -/

namespace Sys2Proof.Machine

def exec (i : Instr) (s : State) : Host.Outcome State Fault Refusal :=
  match i with
  | .nop => Sys2Proof.Machine.execNop s
  | .init key frame => Sys2Proof.Machine.execInit key frame s
  | .gen => Sys2Proof.Machine.execGen s
  | .stepM => Sys2Proof.Machine.execStepM s
  | .stepF => Sys2Proof.Machine.execStepF s

end Sys2Proof.Machine
end

