-- ==== Sys2Proof/Machine/Transaction.lean ====
section
/-! DEFINITION. What one transaction-level step does around exec: it takes the next thing the host drives, decodes
an offered command, and runs it to completion (44_command_interface R190, R196; 30_encoding R81). -/

namespace Sys2Proof.Machine

/-- One accepted command as one transition (R196): sampled (R190), decoded, then its meaning, with KEY and FRAME read from
the accepted command (R32); an illegal word takes the error path of R222. -/
def transact (p : Command) (s : State) : Host.Outcome State Fault Refusal :=
  match decode p with
  | .ok i => exec i (s.sample p)
  | .error _ => .next (runIllegal (s.sample p))

/-- exec(cfg, s, cmd, key, frame) of R196, for any configuration: the same transition as `transact`, which runs it with
the block's own. -/
def runCommand (c : Config) (p : Command) (s : State) : State :=
  match decode p with
  | .error _ => runIllegal (s.sample p)
  | .ok .nop => (s.sample p).complete .none
  | .ok (.init key frame) => runInit c key frame (s.sample p)
  | .ok .gen => runGen c (s.sample p)
  | .ok .stepM => runStepCommand c false (s.sample p)
  | .ok .stepF => runStepCommand c true (s.sample p)

/-- A port list's entry that offers a command. -/
def InPorts.offering (p : Command) : InPorts := { rst := false, cmdValid := true, offer := p }

/-- A port list's entry that asserts reset. -/
def InPorts.resetting : InPorts := { rst := true, cmdValid := false, offer := default }

/-- One transaction. Reset comes first (R226). While a command runs nothing is accepted: it is run to its completion and
the host holds what it drives (R191, R270; log entry 9). An idle block with no offer keeps its state (R235). -/
def hostTransaction (s : State) : Host.Outcome State Fault Refusal :=
  match s.inputs with
  | [] => .next (if s.busy then finishRunning Config.build s else s)
  | p :: rest =>
    if p.rst then .next { s with inputs := rest }.resetBlock
    else if s.busy then .next (finishRunning Config.build s)
    else if p.cmdValid then transact p.offer { s with inputs := rest }
    else .next { s with inputs := rest }

/-- A program (R81): its commands, in order, each accepted after the one before has completed. -/
def execProgram : List Command → State → Host.Outcome State Fault Refusal
  | [], s => .next s
  | p :: rest, s =>
    match transact p s with
    | .next t => execProgram rest t
    | .fault f => .fault f
    | .refused r => .refused r

/-- What a host that runs a program drives (R81). -/
def programInputs (prog : List Command) : List InPorts := prog.map InPorts.offering

end Sys2Proof.Machine
end

