-- ==== Sys2Proof/Machine/Step.lean ====
section
/-! DEFINITION. The machine's step: one host transaction (44_command_interface R196). -/

namespace Sys2Proof.Machine

/-- One step at the transaction level. -/
def step (s : State) : Host.Outcome State Fault Refusal := hostTransaction s

/-- The state in which the next step accepts and runs the command whose bits are `w` (layout of `Command.bits`): the
host offers it first, and the block is idle, as it must be to accept (R190). -/
def State.withFetchWord (s : State) (nbits w : Nat) : State :=
  { s.enter .idle with inputs := InPorts.offering (tableCommand nbits w) :: s.inputs }

end Sys2Proof.Machine
end

