-- ==== Sys2Proof/Machine/Assembler.lean ====
section
/-! DEFINITION. The assembler (30_encoding R79, R80, R81): lines to (CMD, KEY, FRAME) triples, and text to lines. White
space, letter case and number prefixes are DESIGN CHOICE (log entry 12). -/

namespace Sys2Proof.Machine

/-- Why a line is refused (R79). -/
inductive AsmError where
  | unknownMnemonic
  | badOperands
  | keyTooWide
  | frameTooWide
  | cmdOutOfRange
deriving DecidableEq, Repr

/-- INIT's triple, or the refusal of a literal wider than its port: it is not truncated (R79). -/
def assembleInit (key frame : HexLit) : Except AsmError Command :=
  if !keyLiteralOk key then .error .keyTooWide
  else if !frameLiteralOk frame then .error .frameTooWide
  else .ok (encode (.init (BitVec.ofNat 64 (hexValue key)) (BitVec.ofNat 22 (hexValue frame))))

/-- One line's triples: R79's table, and the expansions of R80. -/
def assembleLine : AsmLine → Except AsmError (List Command)
  | .nop => .ok [encode .nop]
  | .init key frame => (assembleInit key frame).map (fun p => [p])
  | .gen => .ok [encode .gen]
  | .stepM => .ok [encode .stepM]
  | .stepF => .ok [encode .stepF]
  | .cmd n => if n ≤ 15 then .ok [{ cmd := BitVec.ofNat 4 n, key := 0#64, frame := 0#22 }] else .error .cmdOutOfRange
  | .step => .ok [encode .stepM]
  | .session key frame => (assembleInit key frame).map (fun p => [p, encode .gen])

/-- A program's triples in order, or the first refused line's number (from `n`) and why (R79, R81). -/
def assembleFrom : (n : Nat) → List AsmLine → Except (Nat × AsmError) (List Command)
  | _, [] => .ok []
  | n, line :: rest =>
    match assembleLine line with
    | .error e => .error (n, e)
    | .ok ps =>
      match assembleFrom (n + 1) rest with
      | .error e => .error e
      | .ok qs => .ok (ps ++ qs)

/-- A digit's value. -/
def digitValue (ch : Char) : Nat := ch.toNat - '0'.toNat

/-- A hexadecimal digit, either case. -/
def hexDigit (ch : Char) : Option (Fin 16) :=
  if '0' ≤ ch ∧ ch ≤ '9' then some (Fin.ofNat 16 (digitValue ch))
  else if 'A' ≤ ch ∧ ch ≤ 'F' then some (Fin.ofNat 16 (ch.toNat - 'A'.toNat + 10))
  else if 'a' ≤ ch ∧ ch ≤ 'f' then some (Fin.ofNat 16 (ch.toNat - 'a'.toNat + 10))
  else none

/-- Hexadecimal digits, all of them or nothing. -/
def hexDigits : List Char → Option HexLit
  | [] => some []
  | ch :: rest =>
    match hexDigit ch, hexDigits rest with
    | some d, some ds => some (d :: ds)
    | _, _ => none

/-- A hexadecimal literal: 0x and at least one digit. -/
def parseHex : List Char → Option HexLit
  | '0' :: 'x' :: ch :: rest => hexDigits (ch :: rest)
  | _ => none

/-- Decimal digits, most significant first, onto `acc`. -/
def parseDecimal (acc : Nat) : List Char → Option Nat
  | [] => some acc
  | ch :: rest => if '0' ≤ ch ∧ ch ≤ '9' then parseDecimal (10 * acc + digitValue ch) rest else none

/-- A number: hexadecimal with 0x, else decimal. -/
def parseNumber (cs : List Char) : Option Nat :=
  match parseHex cs with
  | some ds => some (hexValue ds)
  | none => if cs.isEmpty then none else parseDecimal 0 cs

/-- White space inside a line. -/
def isBlank (ch : Char) : Bool := ch == ' ' || ch == '\t' || ch == '\r'

/-- A line without its comment and without the blanks at its ends. -/
def stripLine (cs : List Char) : List Char :=
  (((cs.takeWhile (· != ';')).dropWhile isBlank).reverse.dropWhile isBlank).reverse

/-- The two operands of INIT and SESSION. -/
def parseKeyFrame (cs : List Char) : Option (HexLit × HexLit) :=
  match parseHex (stripLine (cs.takeWhile (· != ','))), parseHex (stripLine ((cs.dropWhile (· != ',')).drop 1)) with
  | some k, some f => some (k, f)
  | _, _ => none

/-- A line with no operand. -/
def bare (line : AsmLine) (operands : List Char) : Except AsmError (Option AsmLine) :=
  if operands.isEmpty then .ok (some line) else .error .badOperands

/-- One line of text (R79): none for a line that holds nothing but a comment. -/
def parseLine (cs : List Char) : Except AsmError (Option AsmLine) :=
  let body := stripLine cs
  let name := body.takeWhile (fun ch => !isBlank ch)
  let operands := stripLine (body.dropWhile (fun ch => !isBlank ch))
  if name.isEmpty then .ok none
  else if name = ['N', 'O', 'P'] then bare .nop operands
  else if name = ['G', 'E', 'N'] then bare .gen operands
  else if name = ['S', 'T', 'E', 'P', '.', 'M'] then bare .stepM operands
  else if name = ['S', 'T', 'E', 'P', '.', 'F'] then bare .stepF operands
  else if name = ['S', 'T', 'E', 'P'] then bare .step operands
  else if name = ['I', 'N', 'I', 'T'] then
    match parseKeyFrame operands with
    | some (k, f) => .ok (some (.init k f))
    | none => .error .badOperands
  else if name = ['S', 'E', 'S', 'S', 'I', 'O', 'N'] then
    match parseKeyFrame operands with
    | some (k, f) => .ok (some (.session k f))
    | none => .error .badOperands
  else if name = ['.', 'c', 'm', 'd'] then
    match parseNumber operands with
    | some n => .ok (some (.cmd n))
    | none => .error .badOperands
  else .error .unknownMnemonic

end Sys2Proof.Machine
end

