-- ==== Sys2Proof/Machine/Elaborate.lean ====
section
/-! DEFINITION. Elaboration of a configuration (00_scope R11): an illegal one is refused before the block exists. -/

namespace Sys2Proof.Machine

/-- Elaboration of a configuration: refused unless every mask fits and every bit position lies inside its register
(R11). -/
def elaborate (r : RawConfig) : Option Config :=
  if h : r.WellFormed then
    some { taps1 := BitVec.ofNat 19 r.taps1, taps2 := BitVec.ofNat 22 r.taps2, taps3 := BitVec.ofNat 23 r.taps3
           clkbit1 := ⟨r.clkbit1, h.2.1⟩, clkbit2 := ⟨r.clkbit2, h.2.2.1⟩, clkbit3 := ⟨r.clkbit3, h.2.2.2⟩
           loadMode := r.loadMode }
  else none

end Sys2Proof.Machine
end

