-- ==== Sys2Proof/Machine/Instances.lean ====
section
/-! DEFINITION. Several blocks side by side (20_memory R67, 60_exceptions R233): each has its own configuration, ports
and state. -/

namespace Sys2Proof.Machine

/-- One block: what it was built with, and its state. -/
structure Block where
  config : Config
  state : State
deriving DecidableEq, Repr

/-- One clock edge of block k, with the values on its own input ports. -/
def drive (k : Nat) (p : InPorts) (blocks : List Block) : List Block :=
  blocks.modify k (fun b => { b with state := clockEdge b.config p b.state })

end Sys2Proof.Machine
end

