-- ==== Sys2Proof/Machine/Outputs.lean ====
section
/-! DEFINITION. The output ports (30_encoding R74): views of the state. Reading one has no side effect (20_memory R58). -/

namespace Sys2Proof.Machine

/-- KS_BYTE[j]: bit 7 - m is keystream bit 8j + m, and a bit no keystream bit fills is 0 (R52, R53). -/
def byteView (ks : Keystream) (j : Nat) : BitVec 8 := bitsOf 8 (fun b => ks.getLsbD (8 * j + (7 - b)))

/-- The byte ports: bits [8j+7 : 8j] are KS_BYTE[j], j = 0..14 (R74). -/
def bytesPort (ks : Keystream) : BitVec 120 := bitsOf 120 (fun n => (byteView ks (n / 8)).getLsbD (n % 8))

/-- Every output port of R74. -/
structure OutPorts where
  cmdReady : Bool
  status : BitVec 8
  r1Q : Reg1
  r2Q : Reg2
  r3Q : Reg3
  ksDl : Keystream
  ksUl : Keystream
  ksDlBytes : BitVec 120
  ksUlBytes : BitVec 120
deriving DecidableEq, Repr

/-- What the host reads (R27, R28, R74). While BUSY = 1 the keystream ports are no result (20_memory R59, log entry 7). -/
def State.outputs (s : State) : OutPorts :=
  { cmdReady := s.cmdReady, status := s.status
    r1Q := s.cipher.r1, r2Q := s.cipher.r2, r3Q := s.cipher.r3
    ksDl := s.ksDl, ksUl := s.ksUl
    ksDlBytes := bytesPort s.ksDl, ksUlBytes := bytesPort s.ksUl }

end Sys2Proof.Machine
end

