-- ==== Sys2Proof/Machine/Trace.lean ====
section
/-! DEFINITION. The trace of a command: the CipherStates after each of its micro-steps, in order (44_command_interface
R197). -/

namespace Sys2Proof.Machine

/-- INIT's trace: 64 elements in ARTIFACT mode, 23 + 22 + 100 in INTENDED mode (R150, R197). -/
def initTrace (c : Config) (key : Key) (frame : Frame) : List CipherState :=
  match c.loadMode with
  | .artifact => scan (artifactKeyStep key) 64 0 CipherState.zero
  | .intended =>
    scan (intendedKeyStep key) 23 0 CipherState.zero
      ++ scan (frameMixStep c frame) 22 0 (keyloadIntended key)
      ++ scan (fun _ x => clockStep c x true) 100 0 (frameMix c frame (keyloadIntended key))

/-- GEN's trace: 228 majority steps (R174, R197). -/
def genTrace (c : Config) (s : CipherState) : List CipherState := scan (fun _ x => clockStep c x false) 228 0 s

/-- The trace of a command accepted in state s (R197). -/
def trace (c : Config) (p : Command) (s : State) : List CipherState :=
  match decode p with
  | .error _ => []
  | .ok .nop => []
  | .ok (.init key frame) => initTrace c key frame
  | .ok .gen => if s.keyed then genTrace c s.cipher else []
  | .ok .stepM => [clockStep c s.cipher false]
  | .ok .stepF => [clockStep c s.cipher true]

end Sys2Proof.Machine
end

