-- ==== Sys2Proof/Safety.lean ====
section
/-! DEFINITION. What counts as a safe state and a safe answer, in the terms the statements use. The spec gives the block
no fault (60_exceptions R220), so safety is: every step answers a next state, and the sequencer's state stays
consistent. -/

namespace Sys2Proof.Machine

/-- The outputs are a command's result only when BUSY = 0 and DONE = 1 (44_command_interface R193, R271). -/
def State.resultReady (s : State) : Bool := !s.busy && s.done

/-- `n` majority-clocked steps of the Clock-Control Unit (R122). -/
def majoritySteps (c : Config) (n : Nat) (x : CipherState) : CipherState := iter (fun _ y => clockStep c y false) n 0 x

/-- The host drives an idle block's command port with this command at this edge. -/
def Accepts (p : InPorts) (s : State) : Prop := p.rst = false ∧ p.cmdValid = true ∧ s.busy = false

/-- INIT is running. -/
def State.loading (s : State) : Prop := s.phase = .keyload ∨ s.phase = .frame ∨ s.phase = .discard

/-- GEN is writing keystream bits. -/
def State.generating (s : State) : Prop := s.phase = .genDl ∨ s.phase = .genUl

/-- The consistency of the sequencer's state under configuration c: what every edge and every step keeps. -/
structure Inv (c : Config) (s : State) : Prop where
  /-- CNT is 0 in PHASE IDLE (R35; log entry 4). -/
  cntIdle : s.phase = .idle → s.cnt = 0#8
  /-- CMD_L is 0 in PHASE IDLE (log entry 3). -/
  cmdIdle : s.phase = .idle → s.cmdL = 0#4
  /-- CNT runs 0 .. count-1 in each phase (R262). -/
  cntInRange : s.busy = true → s.cnt.toNat < phaseCount c s.phase
  /-- DONE is 0 from the acceptance of a command to its completion (R28). -/
  doneWhileBusy : s.busy = true → s.done = false
  /-- ERR is set by every command that ends in error (R28, R236). -/
  errcodeSetsErr : s.errcode ≠ .none → s.err = true
  /-- KEYED never shows 1 for a CipherState that is only half loaded, and no earlier keystream is visible (R153). -/
  loadingClean : s.loading → s.keyed = false ∧ s.ksDl = 0#114 ∧ s.ksUl = 0#114
  /-- A GEN is accepted into its work only when KEYED = 1, and clears it at completion (R31, R170). -/
  generatingKeyed : s.generating → s.keyed = true
  /-- A CipherState not yet consumed has given no keystream bit: the buffers are as INIT cleared them (R24, R153). -/
  unconsumedBuffersZero : s.keyed = true → ¬ s.generating → s.ksDl = 0#114 ∧ s.ksUl = 0#114
  /-- During the downlink phase, only the bits already generated can be set (R171, R173). -/
  downlinkSoFar : s.phase = .genDl → (∀ i, s.cnt.toNat ≤ i → s.ksDl.getLsbD i = false) ∧ s.ksUl = 0#114
  /-- During the uplink phase, only the bits already generated can be set (R171, R173). -/
  uplinkSoFar : s.phase = .genUl → ∀ i, s.cnt.toNat ≤ i → s.ksUl.getLsbD i = false
  /-- The phases FRAME and DISCARD belong to INTENDED mode (R144, R262). -/
  intendedPhases : s.phase = .frame ∨ s.phase = .discard → c.loadMode = .intended
  /-- The phases KEYLOAD, FRAME and DISCARD are INIT's (R262). -/
  loadingCommand : s.loading → decodeWord s.cmdL = .ok .init
  /-- The phases GEN_DL and GEN_UL are GEN's (R262). -/
  generatingCommand : s.generating → decodeWord s.cmdL = .ok .gen
  /-- The phase STEP is a STEP command's (R262). -/
  stepCommand : s.phase = .step → decodeWord s.cmdL = .ok (.step (forceField s.cmdL))
  /-- The phase UNIT is a NOP's, an illegal word's or a refused GEN's (R262). -/
  unitCommand : s.phase = .unit →
    (∃ e, decodeWord s.cmdL = .error e) ∨ decodeWord s.cmdL = .ok .nop ∨
      (decodeWord s.cmdL = .ok .gen ∧ s.keyed = false)

end Sys2Proof.Machine
end

