-- ==== Sys2Proof/Certificates/Slice0/Obligations.lean ====
section
/-! DEFINITION. The statements for the provers, in the order of the spec's rules: the datapath, INIT, GEN, the command
interface, the errors, reset, the clock-edge machine and its relation to the transaction-level one. -/

open Sys2Proof Sys2Proof.Machine

/-! ### The Bit-Parity Unit and the LFSR advance -/

/-- R100: parity is the XOR of all bits, which is popcount mod 2, at every width; leading zeros do not change it. -/
def Obligations.ParityIsPopcountModTwo : Prop :=
  (∀ (w : Nat) (v : BitVec w),
    parity v = ((List.range w).map (fun i => v.getLsbD i)).foldr (fun a b => a ^^ b) false ∧
    (parity v = true ↔ popcount v % 2 = 1)) ∧
  (∀ (w n : Nat) (v : BitVec w), w ≤ n → parity (v.setWidth n) = parity v) ∧
  (∀ w : Nat, parity (0#w) = false) ∧
  parity 0x7FFFF#19 = true ∧ parity 0x3FFFFF#22 = false

/-- R102: advance shifts left by one, drops the top bit, and puts the parity of the old r & TAPS_k in bit 0. -/
def Obligations.AdvanceShiftsInTapParity : Prop :=
  (∀ (w : Nat) (taps r : BitVec w) (i : Nat), i < w →
    (advance taps r).getLsbD i = (if i = 0 then parity (r &&& taps) else r.getLsbD (i - 1))) ∧
  (∀ (c : Config) (a : Reg1) (b : Reg2) (d : Reg3),
    advance1 c a = advance c.taps1 a ∧ advance2 c b = advance c.taps2 b ∧ advance3 c d = advance c.taps3 d) ∧
  advance 0x072000#19 0x40000#19 = 0x00001#19

/-- R103: the corner cases of advance, for any taps. -/
def Obligations.AdvanceCornerCases : Prop :=
  (∀ (w : Nat) (taps a b : BitVec w),
    advance taps 0#w = 0#w ∧ (advance taps a).toNat < 2 ^ w ∧ advance 0#w a = a <<< 1 ∧
    advance taps (a ^^^ b) = advance taps a ^^^ advance taps b) ∧
  (∀ (w : Nat) (taps r : BitVec (w + 1)),
    advance taps (setBit r w true) =
      advance taps (setBit r w false) ^^^ (if taps.getLsbD w then 1#(w + 1) else 0#(w + 1))) ∧
  (∀ mode : LoadMode,
    (Config.withDefaults mode).taps1.getLsbD 18 = true ∧ (Config.withDefaults mode).taps2.getLsbD 21 = true ∧
    (Config.withDefaults mode).taps3.getLsbD 22 = true)

/-- R104: advance_inj is advance with one bit XORed into the incoming bit. -/
def Obligations.InjectedAdvanceFlipsBitZero : Prop :=
  (∀ (w : Nat) (taps r : BitVec w) (f : Bool) (i : Nat), i < w →
    (advanceInj taps r f).getLsbD i = (if i = 0 then (parity (r &&& taps) ^^ f) else r.getLsbD (i - 1))) ∧
  (∀ (w : Nat) (taps r : BitVec w),
    advanceInj taps r false = advance taps r ∧ advanceInj taps r true = advance taps r ^^^ 1#w) ∧
  advanceInj 0x072000#19 0x00000#19 true = 0x00001#19

/-! ### The Clock-Control Unit -/

/-- R122, R124: a forced step advances all three registers; a majority step advances exactly the two whose
clock-control bits agree, or all three when all agree, and the odd one out holds. -/
def Obligations.StepAdvancesMajorityOrAll : Prop :=
  ∀ (c : Config) (s : CipherState),
    clockStep c s true = ⟨advance1 c s.r1, advance2 c s.r2, advance3 c s.r3⟩ ∧
    (s.r1.getLsbD c.clkbit1 = s.r2.getLsbD c.clkbit2 → s.r1.getLsbD c.clkbit1 = s.r3.getLsbD c.clkbit3 →
      clockStep c s false = ⟨advance1 c s.r1, advance2 c s.r2, advance3 c s.r3⟩) ∧
    (s.r1.getLsbD c.clkbit1 = s.r2.getLsbD c.clkbit2 → s.r1.getLsbD c.clkbit1 ≠ s.r3.getLsbD c.clkbit3 →
      clockStep c s false = ⟨advance1 c s.r1, advance2 c s.r2, s.r3⟩) ∧
    (s.r1.getLsbD c.clkbit1 ≠ s.r2.getLsbD c.clkbit2 → s.r1.getLsbD c.clkbit1 = s.r3.getLsbD c.clkbit3 →
      clockStep c s false = ⟨advance1 c s.r1, s.r2, advance3 c s.r3⟩) ∧
    (s.r2.getLsbD c.clkbit2 = s.r3.getLsbD c.clkbit3 → s.r1.getLsbD c.clkbit1 ≠ s.r2.getLsbD c.clkbit2 →
      clockStep c s false = ⟨s.r1, advance2 c s.r2, advance3 c s.r3⟩)

/-- R127, under every legal configuration (R10): a forced step is linear over GF(2); a majority step is not. -/
def Obligations.OnlyForcedStepIsLinear : Prop :=
  (∀ (c : Config) (a b : CipherState),
    clockStep c (a.xor b) true = (clockStep c a true).xor (clockStep c b true)) ∧
  (∀ c : Config, ∃ a b : CipherState,
    clockStep c (a.xor b) false ≠ (clockStep c a false).xor (clockStep c b false))

/-- R128: a zero register stays zero; with two zero registers m = 0 in every later majority step, and the third register
advances while its control bit is 0 and holds forever once it is 1. -/
def Obligations.TwoZeroRegistersStick : Prop :=
  ∀ (c : Config) (s : CipherState),
    (∀ f, (s.r1 = 0#19 → (clockStep c s f).r1 = 0#19) ∧ (s.r2 = 0#22 → (clockStep c s f).r2 = 0#22) ∧
      (s.r3 = 0#23 → (clockStep c s f).r3 = 0#23)) ∧
    (s.r2 = 0#22 → s.r3 = 0#23 →
      (∀ n, majorityBit c (majoritySteps c n s) = false) ∧
      (s.r1.getLsbD c.clkbit1 = false → clockStep c s false = ⟨advance1 c s.r1, 0#22, 0#23⟩) ∧
      (s.r1.getLsbD c.clkbit1 = true → ∀ n, majoritySteps c n s = s)) ∧
    (s.r1 = 0#19 → s.r3 = 0#23 →
      (∀ n, majorityBit c (majoritySteps c n s) = false) ∧
      (s.r2.getLsbD c.clkbit2 = false → clockStep c s false = ⟨0#19, advance2 c s.r2, 0#23⟩) ∧
      (s.r2.getLsbD c.clkbit2 = true → ∀ n, majoritySteps c n s = s)) ∧
    (s.r1 = 0#19 → s.r2 = 0#22 →
      (∀ n, majorityBit c (majoritySteps c n s) = false) ∧
      (s.r3.getLsbD c.clkbit3 = false → clockStep c s false = ⟨0#19, 0#22, advance3 c s.r3⟩) ∧
      (s.r3.getLsbD c.clkbit3 = true → ∀ n, majoritySteps c n s = s))

/-- R125: STEP.M, in every state. -/
def Obligations.StepMStepsByMajority : Prop :=
  (∀ (key : Key) (frame : Frame), decode ⟨0x3#4, key, frame⟩ = .ok .stepM) ∧
  (∀ s : State, ∃ t, exec .stepM s = .next t ∧
    t.cipher = clockStep Config.build s.cipher false ∧ (s.cipher = CipherState.zero → t.cipher = CipherState.zero) ∧
    t.done = true ∧ t.errcode = .none ∧ t.keyed = s.keyed ∧ t.err = s.err ∧ t.ksDl = s.ksDl ∧ t.ksUl = s.ksUl ∧
    t.busy = false ∧
    (s.keyed = true → exec .gen t = .next (runGen Config.build t) ∧
      (runGen Config.build t).ksDl.getLsbD 0 = outbit (clockStep Config.build s.cipher false))) ∧
  (∀ mode : LoadMode, clockStep (Config.withDefaults mode) ⟨0x3CDEF#19, 0x2BCDEF#22, 0x2BCDEF#23⟩ false =
    ⟨0x79BDE#19, 0x179BDF#22, 0x579BDE#23⟩)

/-- R126: STEP.F, in every state. -/
def Obligations.StepFAdvancesAllRegisters : Prop :=
  (∀ (key : Key) (frame : Frame), decode ⟨0x7#4, key, frame⟩ = .ok .stepF) ∧
  (∀ s : State, ∃ t, exec .stepF s = .next t ∧
    t.cipher = ⟨advance1 Config.build s.cipher.r1, advance2 Config.build s.cipher.r2,
      advance3 Config.build s.cipher.r3⟩ ∧
    (s.cipher = CipherState.zero → t.cipher = CipherState.zero) ∧
    t.done = true ∧ t.errcode = .none ∧ t.keyed = s.keyed ∧ t.err = s.err ∧ t.ksDl = s.ksDl ∧ t.ksUl = s.ksUl ∧
    t.busy = false) ∧
  (∀ mode : LoadMode, ∀ f : Bool, clockStep (Config.withDefaults mode) ⟨0x79BDE#19, 0x2F37BF#22, 0x2F37BD#23⟩ f =
    ⟨0x737BD#19, 0x1E6F7F#22, 0x5E6F7A#23⟩)

/-! ### The Key/Frame Loader -/

/-- R143: ARTIFACT key loading leaves the low bits of the key in each register, so KEY[63:23] has no effect. -/
def Obligations.ArtifactLoadKeepsLowKeyBits : Prop :=
  (∀ key : Key, keyloadArtifact key = ⟨key.extractLsb' 0 19, key.extractLsb' 0 22, key.extractLsb' 0 23⟩) ∧
  (∀ key key' : Key, key.extractLsb' 0 23 = key'.extractLsb' 0 23 → keyloadArtifact key = keyloadArtifact key') ∧
  keyloadArtifact 0x1223456789ABCDEF#64 = ⟨0x3CDEF#19, 0x2BCDEF#22, 0x2BCDEF#23⟩

/-- R144: in ARTIFACT mode INIT's CipherState is that of the key load alone, and FRAME reaches only its own input latch
FRAME_L (R32). -/
def Obligations.ArtifactInitIgnoresFrame : Prop :=
  ∀ (c : Config) (key : Key) (frame frame' : Frame), c.loadMode = .artifact →
    initCipher c key frame = ⟨key.extractLsb' 0 19, key.extractLsb' 0 22, key.extractLsb' 0 23⟩ ∧
    (initTrace c key frame).length = 64 ∧
    ∀ s : State, runInit c key frame' s = { runInit c key frame s with frameL := frame' }

/-- R145: in INTENDED mode the cursor form and the parallel form load the same three slices of the key. -/
def Obligations.IntendedLoadSplitsKey : Prop :=
  (∀ key : Key,
    keyloadIntendedCursor key = ⟨key.extractLsb' 45 19, key.extractLsb' 23 22, key.extractLsb' 0 23⟩ ∧
    keyloadIntended key = keyloadIntendedCursor key) ∧
  (∀ (key : Key) (i : Nat) (x : CipherState), i < 23 →
    intendedKeyStep key i x =
      ⟨if i < 19 then shiftIn x.r1 (key.getLsbD (63 - i)) else x.r1,
       if i < 22 then shiftIn x.r2 (key.getLsbD (44 - i)) else x.r2,
       shiftIn x.r3 (key.getLsbD (22 - i))⟩) ∧
  keyloadIntended 0x1223456789ABCDEF#64 = ⟨0x0911A#19, 0x0ACF13#22, 0x2BCDEF#23⟩

/-- R148: every micro-step of an INTENDED INIT is linear over GF(2), and the state INIT leaves in INTENDED mode is a
GF(2)-linear function of (KEY, FRAME). -/
def Obligations.IntendedInitIsLinear : Prop :=
  ∀ c : Config, c.loadMode = .intended →
    (∀ (k k' : Key) (f f' : Frame) (i : Nat) (a b : CipherState),
      intendedKeyStep (k ^^^ k') i (a.xor b) = (intendedKeyStep k i a).xor (intendedKeyStep k' i b) ∧
      frameMixStep c (f ^^^ f') i (a.xor b) = (frameMixStep c f i a).xor (frameMixStep c f' i b) ∧
      clockStep c (a.xor b) true = (clockStep c a true).xor (clockStep c b true)) ∧
    (∀ (k k' : Key) (f f' : Frame),
      initCipher c (k ^^^ k') (f ^^^ f') = (initCipher c k f).xor (initCipher c k' f')) ∧
    initCipher c 0#64 0#22 = CipherState.zero

/-- R149: with KEY = 0 a frame number other than 0 leaves a state other than 0 after frame mixing, whatever the taps. -/
def Obligations.FrameMixOfNonzeroFrameIsNonzero : Prop :=
  ∀ (c : Config) (frame : Frame), frame ≠ 0#22 →
    frameMix c frame (keyloadIntended 0#64) ≠ CipherState.zero ∧
    (frameMix c frame (keyloadIntended 0#64)).r2 ≠ 0#22 ∧ (frameMix c frame (keyloadIntended 0#64)).r3 ≠ 0#23

/-- R149: with tap masks of an even number of bits and FRAME all ones, frame mixing leaves the all-ones state as it
is. -/
def Obligations.FrameMixKeepsAllOnes : Prop :=
  ∀ c : Config, popcount c.taps1 % 2 = 0 → popcount c.taps2 % 2 = 0 → popcount c.taps3 % 2 = 0 →
    (∀ i, i < 22 → frameMixStep c (BitVec.allOnes 22) i ⟨BitVec.allOnes 19, BitVec.allOnes 22, BitVec.allOnes 23⟩ =
      ⟨BitVec.allOnes 19, BitVec.allOnes 22, BitVec.allOnes 23⟩) ∧
    frameMix c (BitVec.allOnes 22) (keyloadIntended (BitVec.allOnes 64)) =
      ⟨BitVec.allOnes 19, BitVec.allOnes 22, BitVec.allOnes 23⟩

/-- R140, R141, R153: INIT completes in every state; it loads the CipherState of its mode, clears both buffers, sets
KEYED and DONE, and leaves ERR. Each mode's clause is one branch of an equation, so neither is assumed. -/
def Obligations.InitLoadsCipherState : Prop :=
  (∀ (key : Key) (frame : Frame), decode ⟨0x1#4, key, frame⟩ = .ok (.init key frame)) ∧
  (∀ (key : Key) (frame : Frame) (s : State), ∃ t, exec (.init key frame) s = .next t ∧
    t.cipher =
      (match Config.build.loadMode with
       | .artifact => ⟨key.extractLsb' 0 19, key.extractLsb' 0 22, key.extractLsb' 0 23⟩
       | .intended =>
         iter (fun _ x => clockStep Config.build x true) 100 0
           (iter (fun i x => CipherState.mk (advanceInj Config.build.taps1 x.r1 (frame.getLsbD i))
               (advanceInj Config.build.taps2 x.r2 (frame.getLsbD i))
               (advanceInj Config.build.taps3 x.r3 (frame.getLsbD i))) 22 0
             ⟨key.extractLsb' 45 19, key.extractLsb' 23 22, key.extractLsb' 0 23⟩)) ∧
    (key = 0#64 → frame = 0#22 → t.cipher = CipherState.zero) ∧
    t.ksDl = 0#114 ∧ t.ksUl = 0#114 ∧ t.keyed = true ∧ t.done = true ∧ t.errcode = .none ∧ t.err = s.err ∧
    t.busy = false)

/-! ### The Keystream Generator -/

/-- R170, R171, R173: with KEYED = 1, GEN completes; downlink bit i is the output bit after i majority steps from the
state it started with, uplink bit i after 114 + i, and the registers are left after 228. -/
def Obligations.GenEmitsBothKeystreams : Prop :=
  (∀ (key : Key) (frame : Frame), decode ⟨0x2#4, key, frame⟩ = .ok .gen) ∧
  (∀ s : State, s.keyed = true → ∃ t, exec .gen s = .next t ∧
    (∀ i, i < 114 →
      t.ksDl.getLsbD i = outbit (majoritySteps Config.build i s.cipher) ∧
      t.ksUl.getLsbD i = outbit (majoritySteps Config.build (114 + i) s.cipher)) ∧
    t.cipher = majoritySteps Config.build 228 s.cipher ∧
    t.keyed = false ∧ t.done = true ∧ t.errcode = .none ∧ t.err = s.err ∧ t.busy = false)

/-- R172, R175: from the all-zero CipherState both keystreams are 0 and the registers stay 0; the output bit is the XOR
of the three top bits. -/
def Obligations.GenFromZeroIsZero : Prop :=
  (∀ x : CipherState, outbit x = (x.r1.getLsbD 18 ^^ x.r2.getLsbD 21 ^^ x.r3.getLsbD 22)) ∧
  (∀ s : State, s.keyed = true → s.cipher = CipherState.zero →
    ∃ t, exec .gen s = .next t ∧ t.ksDl = 0#114 ∧ t.ksUl = 0#114 ∧ t.cipher = CipherState.zero ∧ t.errcode = .none)

/-- R223, R227: with KEYED = 0, GEN is refused with NOT_KEYED and changes nothing but DONE, ERRCODE and ERR; KEYED is 0
after reset and after every GEN, and stays 0 through every command that is not INIT. That KEY_L and FRAME_L are among
what a refused GEN leaves is the model's reading of R227 beside R190 (log entry 2). -/
def Obligations.GenWithoutKeyIsRefused : Prop :=
  (∀ s : State, s.keyed = false → ∃ t, exec .gen s = .next t ∧
    t.done = true ∧ t.errcode = .notKeyed ∧ t.err = true ∧
    t.cipher = s.cipher ∧ t.ksDl = s.ksDl ∧ t.ksUl = s.ksUl ∧ t.keyed = false ∧ t.keyL = s.keyL ∧
    t.frameL = s.frameL ∧ t.busy = false) ∧
  State.reset.keyed = false ∧ (∀ s t : State, exec .gen s = .next t → t.keyed = false) ∧
  (∀ (i : Instr) (s t : State), (∀ key frame, i ≠ .init key frame) → s.keyed = false → exec i s = .next t →
    t.keyed = false)

/-- R176: GEN is a function of the CipherState at acceptance and the configuration; INIT followed by GEN is a function of
(KEY, FRAME) and the configuration alone: whatever the state before, the keystreams and the final registers are the
same. LOAD_MODE has no effect on GEN. -/
def Obligations.SessionDependsOnlyOnKeyAndFrame : Prop :=
  (∀ (key : Key) (frame : Frame), ∃ (dl ul : Keystream) (x : CipherState), ∀ s : State, ∃ t u,
    exec (.init key frame) s = .next t ∧ exec .gen t = .next u ∧
    u.ksDl = dl ∧ u.ksUl = ul ∧ u.cipher = x ∧ u.errcode = .none ∧ u.err = s.err ∧ u.keyed = false) ∧
  (∀ s s' : State, s.keyed = true → s'.keyed = true → s.cipher = s'.cipher → ∃ t t',
    exec .gen s = .next t ∧ exec .gen s' = .next t' ∧ t.ksDl = t'.ksDl ∧ t.ksUl = t'.ksUl ∧ t.cipher = t'.cipher) ∧
  (∀ s : State, exec .gen s = .next (runGen Config.build s)) ∧
  (∀ (c c' : Config) (s s' : State), s.keyed = true → s'.keyed = true → s.cipher = s'.cipher →
    c.taps1 = c'.taps1 → c.taps2 = c'.taps2 → c.taps3 = c'.taps3 →
    c.clkbit1 = c'.clkbit1 → c.clkbit2 = c'.clkbit2 → c.clkbit3 = c'.clkbit3 →
    (runGen c s).ksDl = (runGen c' s').ksDl ∧ (runGen c s).ksUl = (runGen c' s').ksUl ∧
    (runGen c s).cipher = (runGen c' s').cipher)

/-- R273: after a GEN, a second GEN with no INIT between is refused with NOT_KEYED and leaves the buffers as the first
left them, whatever commands other than INIT stand between: none, one or many, illegal words and further GENs among
them. -/
def Obligations.SecondGenKeepsFirstKeystream : Prop :=
  ∀ (s : State) (between : List Command), (∀ p ∈ between, p.cmd ≠ 0x1#4) →
    ∃ t u v, exec .gen s = .next t ∧ execProgram between t = .next u ∧ exec .gen u = .next v ∧
      t.keyed = false ∧ u.keyed = false ∧ u.ksDl = t.ksDl ∧ u.ksUl = t.ksUl ∧
      v.errcode = .notKeyed ∧ v.err = true ∧ v.keyed = false ∧ v.ksDl = t.ksDl ∧ v.ksUl = t.ksUl ∧ v.cipher = u.cipher

/-! ### Output views -/

/-- R52, R53: the byte view, most significant bit first within each byte, and its six padding bits; 0xB361 is the bits
1000 0110 1100 1101 of the worked example, the first in bit 0. -/
def Obligations.ByteViewIsMsbFirst : Prop :=
  (byteView 0xB361#114 0 = 0x86#8 ∧ byteView 0xB361#114 1 = 0xCD#8) ∧
  (∀ s : State, s.outputs.ksDlBytes = bytesPort s.ksDl ∧ s.outputs.ksUlBytes = bytesPort s.ksUl) ∧
  ∀ ks : Keystream,
    (∀ j m, j < 15 → m < 8 → 8 * j + m ≤ 113 → (byteView ks j).getLsbD (7 - m) = ks.getLsbD (8 * j + m)) ∧
    (∀ b, b ≤ 5 → (byteView ks 14).getLsbD b = false) ∧
    (∀ j, j < 15 → (bytesPort ks).extractLsb' (8 * j) 8 = byteView ks j)

/-- R28, R30: the fields of STATUS, and CMD_READY = NOT BUSY with BUSY = (PHASE ≠ IDLE). -/
def Obligations.StatusWordFields : Prop :=
  ∀ s : State,
    (s.outputs.status.getLsbD 0 = true ↔ s.phase ≠ .idle) ∧ s.outputs.status.getLsbD 1 = s.done ∧
    s.outputs.status.getLsbD 2 = s.keyed ∧ s.outputs.status.getLsbD 3 = s.err ∧
    s.outputs.status.extractLsb' 4 2 =
      (match s.errcode with
       | .none => 0#2
       | .illegalCmd => 1#2
       | .notKeyed => 2#2) ∧
    s.outputs.status.extractLsb' 6 2 = 0#2 ∧ s.outputs.cmdReady = !s.outputs.status.getLsbD 0 ∧
    State.reset.outputs.status = 0#8

/-! ### The command interface -/

/-- R194: NOP completes in every state and changes nothing but DONE and ERRCODE. -/
def Obligations.NopOnlyCompletes : Prop :=
  (∀ (key : Key) (frame : Frame), decode ⟨0x0#4, key, frame⟩ = .ok .nop) ∧
  (∀ s : State, ∃ t, exec .nop s = .next t ∧
    t.done = true ∧ t.errcode = .none ∧ t.keyed = s.keyed ∧ t.err = s.err ∧
    t.cipher = s.cipher ∧ t.ksDl = s.ksDl ∧ t.ksUl = s.ksUl ∧ t.busy = false ∧
    (s.status = 0x2A#8 → t.status = 0x0A#8))

/-- R75, R76, R77: five words are commands, and the other eleven are illegal, whatever the operand ports hold. -/
def Obligations.SixteenWordsHaveVerdicts : Prop :=
  ∀ (w : CmdWord) (key : Key) (frame : Frame),
    ((∃ e, decode ⟨w, key, frame⟩ = .error e) ↔
      w ∈ [0x4#4, 0x5#4, 0x6#4, 0x8#4, 0x9#4, 0xA#4, 0xB#4, 0xC#4, 0xD#4, 0xE#4, 0xF#4]) ∧
    (decode ⟨w, key, frame⟩ = .ok .nop ↔ w = 0x0#4) ∧
    (decode ⟨w, key, frame⟩ = .ok (.init key frame) ↔ w = 0x1#4) ∧
    (decode ⟨w, key, frame⟩ = .ok .gen ↔ w = 0x2#4) ∧
    (decode ⟨w, key, frame⟩ = .ok .stepM ↔ w = 0x3#4) ∧
    (decode ⟨w, key, frame⟩ = .ok .stepF ↔ w = 0x7#4)

/-- A few words of the opcode table, through the numbering the host uses (the packing is log entry 11). -/
def Obligations.TableWordsDecode : Prop :=
  decodeTableWord 8 0x0 = some .nop ∧ decodeTableWord 8 0x1 = some (.init 0#64 0#22) ∧
  decodeTableWord 8 0x2 = some .gen ∧ decodeTableWord 8 0x3 = some .stepM ∧ decodeTableWord 8 0x7 = some .stepF ∧
  decodeTableWord 8 0x6 = none ∧ decodeTableWord 8 0x8 = none

/-- R71, R72, R75, R79: decode and encode agree on the packed triple: every instruction is read back, and a triple
decodes to an instruction exactly when it has that instruction's command word and, for INIT, its operands. The packing is
the model's choice (log entry 11). -/
def Obligations.DecodeEncodeAgree : Prop :=
  (∀ p : Command, Command.ofBits p.bits = p) ∧ (∀ b : BitVec 90, (Command.ofBits b).bits = b) ∧
  (∀ i : Instr, decode (Command.ofBits (encode i).bits) = .ok i) ∧
  (∀ (b : BitVec 90) (i : Instr),
    decode (Command.ofBits b) = .ok i ↔
      (b.extractLsb' 0 4 = (encode i).cmd ∧
        ∀ key frame, i = .init key frame → key = b.extractLsb' 4 64 ∧ frame = b.extractLsb' 68 22))

/-- A step of an idle block whose host offers a legal command is exec of the decoded instruction, in the state that has
taken the offer and sampled its ports (R190, R196). The model's choices in it: a GEN that will be refused leaves KEY_L and
FRAME_L (log entry 2), CMD_L (log entry 3), and the list of inputs (log entry 8). -/
def Obligations.StepRunsTheDecodedCommand : Prop :=
  ∀ (s : State) (p : InPorts) (rest : List InPorts) (i : Instr),
    s.inputs = p :: rest → p.rst = false → s.busy = false → p.cmdValid = true → decode p.offer = .ok i →
    step s = exec i
      { s with
        inputs := rest, cmdL := p.offer.cmd
        keyL := if i = .gen ∧ s.keyed = false then s.keyL else p.offer.key
        frameL := if i = .gen ∧ s.keyed = false then s.frameL else p.offer.frame }

/-- R222, R77, R226, R227: an accepted illegal word performs no micro-step; only DONE, ERRCODE and ERR change, whatever
KEYED holds, and the block is ready at once. That KEY_L and FRAME_L are among what it leaves is the model's reading of
R227 beside R190 (log entry 2); the host offers it through the input list, the model's own (log entry 8). -/
def Obligations.IllegalWordOnlyReportsError : Prop :=
  ∀ (s : State) (p : InPorts) (rest : List InPorts),
    s.inputs = p :: rest → p.rst = false → s.busy = false → p.cmdValid = true →
    p.offer.cmd ∈ [0x4#4, 0x5#4, 0x6#4, 0x8#4, 0x9#4, 0xA#4, 0xB#4, 0xC#4, 0xD#4, 0xE#4, 0xF#4] →
    ∃ t, step s = .next t ∧ t.done = true ∧ t.errcode = .illegalCmd ∧ t.err = true ∧
      t.cipher = s.cipher ∧ t.ksDl = s.ksDl ∧ t.ksUl = s.ksUl ∧ t.keyed = s.keyed ∧ t.keyL = s.keyL ∧
      t.frameL = s.frameL ∧ t.cmdReady = true

/-- R235, R226, R250: with no offer an idle block keeps every piece of state; with rst = 1 every piece takes its reset
value, running command or not, offer or not. Three things in it are the model's choices: the input list (log entry 8),
that an offer in a reset entry is gone with that entry (log entry 13), and CMD_L's reset value (log entry 3). -/
def Obligations.StepIdlesOrResets : Prop :=
  ∀ s : State,
    (s.busy = false → s.inputs = [] → step s = .next s) ∧
    (∀ p rest, s.inputs = p :: rest → p.rst = false → s.busy = false → p.cmdValid = false →
      step s = .next { s with inputs := rest }) ∧
    (∀ p rest, s.inputs = p :: rest → p.rst = true → step s = .next { State.reset with inputs := rest })

/-- R36, R196, R220: every step of every state answers a next state, and that state has BUSY = 0. That a step of a busy
block finishes the running command is the model's choice (log entry 9). -/
def Obligations.EveryStepAnswersAnIdleState : Prop :=
  ∀ s : State, ∃ t, step s = .next t ∧ t.busy = false

/-- R81, R198: a host that runs a program from an idle block gets, after as many steps as commands, the state of the
commands executed one after another; it has BUSY = 0, and DONE = 1 if there was a command. How the host drives a program
is the model's choice (log entry 8). -/
def Obligations.ProgramRunIsCommandsInOrder : Prop :=
  ∀ (prog : List Command) (s : State), s.busy = false →
    Host.Core.run Sys2Proof.core prog.length ({ s with inputs := programInputs prog } : State) =
      execProgram prog { s with inputs := [] } ∧
    ∃ t, execProgram prog { s with inputs := [] } = .next t ∧ t.busy = false ∧ (prog ≠ [] → t.done = true)

/-- R254: from any state, reset, then INIT, then GEN gives the keystreams of (KEY, FRAME) with no error; without the
INIT, the GEN is refused. The input list is the model's own (log entry 8). -/
def Obligations.BootSequenceGivesKeystream : Prop :=
  ∀ (s : State) (key : Key) (frame : Frame),
    (∃ t, Host.Core.run Sys2Proof.core 3
        ({ s with inputs := [.resetting, .offering (encode (.init key frame)), .offering (encode .gen)] } : State) =
          .next t ∧
      (∀ i, i < 114 →
        t.ksDl.getLsbD i = outbit (majoritySteps Config.build i (initCipher Config.build key frame)) ∧
        t.ksUl.getLsbD i = outbit (majoritySteps Config.build (114 + i) (initCipher Config.build key frame))) ∧
      t.status = 0x02#8) ∧
    (∃ t, Host.Core.run Sys2Proof.core 2
        ({ s with inputs := [.resetting, .offering (encode .gen)] } : State) = .next t ∧
      t.status = 0x2A#8 ∧ t.ksDl = 0#114 ∧ t.ksUl = 0#114)

/-- R79, R80: the assembler's table: each mnemonic's triple, the expansions, and the refusal of a literal wider than its
port, which is not truncated. -/
def Obligations.AssemblerRefusesWideLiterals : Prop :=
  (assembleLine .nop = .ok [⟨0x0#4, 0#64, 0#22⟩] ∧ assembleLine .gen = .ok [⟨0x2#4, 0#64, 0#22⟩] ∧
    assembleLine .stepM = .ok [⟨0x3#4, 0#64, 0#22⟩] ∧ assembleLine .stepF = .ok [⟨0x7#4, 0#64, 0#22⟩] ∧
    assembleLine .step = assembleLine .stepM) ∧
  (∀ n, (n ≤ 15 → ∃ w : CmdWord, w.toNat = n ∧ assembleLine (.cmd n) = .ok [⟨w, 0#64, 0#22⟩]) ∧
    (15 < n → assembleLine (.cmd n) = .error .cmdOutOfRange)) ∧
  (∀ key frame : HexLit,
    (1 ≤ key.length → key.length ≤ 16 → 1 ≤ frame.length → frame.length ≤ 6 → hexValue frame < 2 ^ 22 →
      ∃ (k : Key) (f : Frame), k.toNat = hexValue key ∧ f.toNat = hexValue frame ∧
        assembleLine (.init key frame) = .ok [⟨0x1#4, k, f⟩] ∧
        assembleLine (.session key frame) = .ok [⟨0x1#4, k, f⟩, ⟨0x2#4, 0#64, 0#22⟩]) ∧
    (16 < key.length →
      assembleLine (.init key frame) = .error .keyTooWide ∧ assembleLine (.session key frame) = .error .keyTooWide) ∧
    (1 ≤ key.length → key.length ≤ 16 → (6 < frame.length ∨ 2 ^ 22 ≤ hexValue frame) →
      assembleLine (.init key frame) = .error .frameTooWide ∧
      assembleLine (.session key frame) = .error .frameTooWide))

/-- R11: an elaboration given a mask or bit position outside its register is refused; any other gives the configuration
written down. -/
def Obligations.ElaborationRefusesIllegalConfig : Prop :=
  ∀ r : RawConfig,
    ((2 ^ 19 ≤ r.taps1 ∨ 2 ^ 22 ≤ r.taps2 ∨ 2 ^ 23 ≤ r.taps3 ∨ 19 ≤ r.clkbit1 ∨ 22 ≤ r.clkbit2 ∨ 23 ≤ r.clkbit3) →
      elaborate r = none) ∧
    (r.taps1 < 2 ^ 19 → r.taps2 < 2 ^ 22 → r.taps3 < 2 ^ 23 → r.clkbit1 < 19 → r.clkbit2 < 22 → r.clkbit3 < 23 →
      ∃ c, elaborate r = some c ∧ c.taps1.toNat = r.taps1 ∧ c.taps2.toNat = r.taps2 ∧ c.taps3.toNat = r.taps3 ∧
        c.clkbit1.val = r.clkbit1 ∧ c.clkbit2.val = r.clkbit2 ∧ c.clkbit3.val = r.clkbit3 ∧ c.loadMode = r.loadMode)

/-! ### Errors -/

/-- R236: ERR is sticky: only reset clears it, at an edge or in a step; ERRCODE reflects only the command that has just
completed. -/
def Obligations.ErrIsStickyUntilReset : Prop :=
  (∀ (c : Config) (p : InPorts) (s : State), s.err = true → p.rst = false → (clockEdge c p s).err = true) ∧
  (∀ s t : State, s.err = true → (∀ p rest, s.inputs = p :: rest → p.rst = false) → step s = .next t →
    t.err = true) ∧
  (∀ (i : Instr) (s : State), ∃ t, exec i s = .next t ∧
    t.errcode = (if i = .gen ∧ s.keyed = false then .notKeyed else .none) ∧
    t.err = (s.err || decide (t.errcode ≠ .none))) ∧
  (∀ (c : Config) (p : InPorts) (s : State), p.rst = true → (clockEdge c p s).err = false)

/-- What a command does to the sequencer's hidden state and to the model's own fields: PHASE is IDLE at completion (R262)
and CNT and CMD_L are 0 (log entries 4 and 3); INIT's operands are in KEY_L and FRAME_L (R32), and no other command's
meaning writes the latches: what they hold then was sampled at its acceptance, which is the step's part (R190, log entry
2); the host's inputs are untouched (log entry 8). -/
def Obligations.CommandsLeaveHiddenStateIdle : Prop :=
  ∀ (i : Instr) (s : State), ∃ t, exec i s = .next t ∧
    t.phase = .idle ∧ t.cnt = 0#8 ∧ t.cmdL = 0#4 ∧ t.inputs = s.inputs ∧
    (∀ key frame, i = .init key frame → t.keyL = key ∧ t.frameL = frame) ∧
    ((∀ key frame, i ≠ .init key frame) → t.keyL = s.keyL ∧ t.frameL = s.frameL)

/-! ### The machine at its clock edges -/

/-- R250, R251, R252, R253: a reset edge gives every piece of state its reset value, from any state, a command running
or not, the state before the first reset too; holding rst changes nothing more. -/
def Obligations.ResetEdgeResetsEverything : Prop :=
  (∀ (c : Config) (p : InPorts) (s : State), p.rst = true →
    (clockEdge c p s).cipher = ⟨0#19, 0#22, 0#23⟩ ∧ (clockEdge c p s).ksDl = 0#114 ∧ (clockEdge c p s).ksUl = 0#114 ∧
    (clockEdge c p s).keyed = false ∧ (clockEdge c p s).done = false ∧ (clockEdge c p s).err = false ∧
    (clockEdge c p s).errcode = .none ∧ (clockEdge c p s).busy = false ∧ (clockEdge c p s).cmdReady = true ∧
    (clockEdge c p s).status = 0#8 ∧ (clockEdge c p s).phase = .idle ∧ (clockEdge c p s).cnt = 0#8 ∧
    (clockEdge c p s).keyL = 0#64 ∧ (clockEdge c p s).frameL = 0#22) ∧
  (∀ (c : Config) (p : InPorts), p.rst = true → (clockEdge c p State.powerUp).status = 0#8) ∧
  (∀ (c : Config) (p : InPorts) (ports : List InPorts) (s : State), p.rst = true → (∀ q ∈ ports, q.rst = true) →
    runEdges c (p :: ports) s = clockEdge c p s)

/-- R190, R153: what the accepting edge does: BUSY <- 1, DONE <- 0; KEY and FRAME are latched; INIT zeroes the registers
and clears both buffers and KEYED at once, and any other command leaves them. That the two commands that fail, an illegal
word and a GEN with KEYED = 0, leave the latches is the model's reading of R227 beside R190 (log entry 2). -/
def Obligations.AcceptingEdgeSamplesPorts : Prop :=
  ∀ (c : Config) (p : InPorts) (s : State), Accepts p s →
    (clockEdge c p s).busy = true ∧ (clockEdge c p s).done = false ∧ (clockEdge c p s).err = s.err ∧
    (clockEdge c p s).errcode = s.errcode ∧
    (p.offer.cmd ∈ [0x0#4, 0x1#4, 0x3#4, 0x7#4] ∨ (p.offer.cmd = 0x2#4 ∧ s.keyed = true) →
      (clockEdge c p s).keyL = p.offer.key ∧ (clockEdge c p s).frameL = p.offer.frame) ∧
    (p.offer.cmd ∈ [0x4#4, 0x5#4, 0x6#4, 0x8#4, 0x9#4, 0xA#4, 0xB#4, 0xC#4, 0xD#4, 0xE#4, 0xF#4] ∨
        (p.offer.cmd = 0x2#4 ∧ s.keyed = false) →
      (clockEdge c p s).keyL = s.keyL ∧ (clockEdge c p s).frameL = s.frameL) ∧
    (p.offer.cmd = 0x1#4 →
      (clockEdge c p s).cipher = CipherState.zero ∧ (clockEdge c p s).ksDl = 0#114 ∧
      (clockEdge c p s).ksUl = 0#114 ∧ (clockEdge c p s).keyed = false) ∧
    (p.offer.cmd ≠ 0x1#4 →
      (clockEdge c p s).cipher = s.cipher ∧ (clockEdge c p s).ksDl = s.ksDl ∧
      (clockEdge c p s).ksUl = s.ksUl ∧ (clockEdge c p s).keyed = s.keyed)

/-- R191, R270, R272: while BUSY = 1 the command and operand ports are ignored: any two runs of edges from a busy state
whose ports differ, reset aside, agree as long as the block stays busy before each edge. -/
def Obligations.BusyBlockIgnoresPorts : Prop :=
  (∀ (c : Config) (p q : InPorts) (s : State), s.busy = true → p.rst = q.rst → clockEdge c p s = clockEdge c q s) ∧
  (∀ (c : Config) (p : InPorts) (s : State), s.busy = true → p.rst = false →
    (clockEdge c p s).keyL = s.keyL ∧ (clockEdge c p s).frameL = s.frameL) ∧
  (∀ (c : Config) (ps qs : List InPorts) (s : State), ps.length = qs.length →
    (∀ p ∈ ps, p.rst = false) → (∀ q ∈ qs, q.rst = false) →
    (∀ n, n < ps.length → (runEdges c (ps.take n) s).busy = true) → runEdges c ps s = runEdges c qs s)

/-- R31: KEYED becomes 1 exactly when an INIT completes, and 0 only at the edge that accepts an INIT, when a GEN
completes, and on reset; a GEN is accepted into its work only when KEYED = 1. -/
def Obligations.KeyedChangesOnlyByInitGenReset : Prop :=
  ∀ (c : Config) (p : InPorts) (s : State),
    (s.keyed = false → (clockEdge c p s).keyed = true →
      p.rst = false ∧ s.loading ∧ (clockEdge c p s).busy = false ∧ (clockEdge c p s).done = true) ∧
    (p.rst = false → s.loading → (clockEdge c p s).busy = false → (clockEdge c p s).keyed = true) ∧
    (s.keyed = true → (clockEdge c p s).keyed = false →
      p.rst = true ∨ (Accepts p s ∧ p.offer.cmd = 0x1#4) ∨
      (s.phase = .genUl ∧ (clockEdge c p s).busy = false)) ∧
    (p.rst = false → s.phase = .genUl → (clockEdge c p s).busy = false → (clockEdge c p s).keyed = false) ∧
    (p.rst = true ∨ (Accepts p s ∧ p.offer.cmd = 0x1#4) → (clockEdge c p s).keyed = false) ∧
    (Accepts p s → (clockEdge c p s).generating → s.keyed = true ∧ p.offer.cmd = 0x2#4)

/-- R22, R24: only INIT, GEN, STEP.M, STEP.F and reset change the registers; only GEN, INIT and reset change the
buffers, GEN the downlink in its first phase and the uplink in its second. An accepted NOP, illegal word or refused GEN
enters PHASE UNIT, which changes none of them and ends at the next edge; the phases that write are entered by INIT, GEN
and STEP only. The schedule is the nominal one (log entry 6). -/
def Obligations.OnlyListedWritersChangeRegisters : Prop :=
  ∀ (c : Config) (p : InPorts) (s : State),
    ((clockEdge c p s).cipher ≠ s.cipher →
      p.rst = true ∨ (Accepts p s ∧ p.offer.cmd = 0x1#4) ∨ s.loading ∨ s.generating ∨ s.phase = .step) ∧
    ((clockEdge c p s).ksDl ≠ s.ksDl → p.rst = true ∨ (Accepts p s ∧ p.offer.cmd = 0x1#4) ∨ s.phase = .genDl) ∧
    ((clockEdge c p s).ksUl ≠ s.ksUl → p.rst = true ∨ (Accepts p s ∧ p.offer.cmd = 0x1#4) ∨ s.phase = .genUl) ∧
    (Accepts p s →
      ((clockEdge c p s).loading ↔ p.offer.cmd = 0x1#4) ∧
      ((clockEdge c p s).generating ↔ p.offer.cmd = 0x2#4 ∧ s.keyed = true) ∧
      ((clockEdge c p s).phase = .step ↔ p.offer.cmd = 0x3#4 ∨ p.offer.cmd = 0x7#4) ∧
      ((clockEdge c p s).phase = .unit ↔
        p.offer.cmd = 0x0#4 ∨ (p.offer.cmd = 0x2#4 ∧ s.keyed = false) ∨
        p.offer.cmd ∈ [0x4#4, 0x5#4, 0x6#4, 0x8#4, 0x9#4, 0xA#4, 0xB#4, 0xC#4, 0xD#4, 0xE#4, 0xF#4])) ∧
    (s.phase = .unit → p.rst = false →
      (clockEdge c p s).phase = .idle ∧ (clockEdge c p s).cipher = s.cipher ∧ (clockEdge c p s).ksDl = s.ksDl ∧
      (clockEdge c p s).ksUl = s.ksUl ∧ (clockEdge c p s).keyed = s.keyed)

/-- R225: DONE stays 1 until the next command is accepted or reset, and rises only at a completion, where BUSY
falls; ERRCODE and ERR change only there or on reset. -/
def Obligations.DoneIsALevel : Prop :=
  ∀ (c : Config) (p : InPorts) (s : State),
    (s.done = true → (clockEdge c p s).done = false → p.rst = true ∨ Accepts p s) ∧
    (p.rst = true ∨ Accepts p s → (clockEdge c p s).done = false) ∧
    (s.done = false → (clockEdge c p s).done = true →
      p.rst = false ∧ s.busy = true ∧ (clockEdge c p s).busy = false) ∧
    (p.rst = false → s.busy = true → (clockEdge c p s).busy = false → (clockEdge c p s).done = true) ∧
    ((clockEdge c p s).errcode ≠ s.errcode ∨ (clockEdge c p s).err ≠ s.err →
      p.rst = true ∨ (s.busy = true ∧ (clockEdge c p s).busy = false))

/-- R150, R174, R197: the trace has 0, 1, 64 or 145, or 228 elements, and its last element is the CipherState the command
leaves; a command with no micro-step leaves the CipherState it found. -/
def Obligations.TraceLengthAndLastElement : Prop :=
  ∀ (p : Command) (s : State),
    (trace Config.build p s).length =
      (match decode p with
       | .error _ => 0
       | .ok .nop => 0
       | .ok .gen => if s.keyed then 228 else 0
       | .ok .stepM => 1
       | .ok .stepF => 1
       | .ok (.init _ _) =>
         match Config.build.loadMode with
         | .artifact => 64
         | .intended => 145) ∧
    ∃ t, transact p s = .next t ∧ t.cipher = ((trace Config.build p s).getLast?).getD s.cipher

/-- R262, R27, R197: with the nominal schedule, edge j + 1 after acceptance shows element j of the trace on the snapshot
outputs, and BUSY stays 1 and DONE 0 until the last edge of the command, whatever the ports hold, reset aside. That the
schedule is exactly the nominal one is the model's choice (log entry 6). -/
def Obligations.SnapshotsShowTheTrace : Prop :=
  ∀ (c : Config) (p : InPorts) (s : State) (later : List InPorts),
    Accepts p s → (∀ q ∈ later, q.rst = false) →
    (∀ j, later.length = j + 1 → j < (trace c p.offer s).length →
      (trace c p.offer s)[j]? =
        some ⟨(runEdges c (p :: later) s).outputs.r1Q, (runEdges c (p :: later) s).outputs.r2Q,
          (runEdges c (p :: later) s).outputs.r3Q⟩) ∧
    (later.length < max (trace c p.offer s).length 1 →
      (runEdges c (p :: later) s).busy = true ∧ (runEdges c (p :: later) s).done = false) ∧
    (later.length = max (trace c p.offer s).length 1 →
      (runEdges c (p :: later) s).busy = false ∧ (runEdges c (p :: later) s).done = true)

/-- R196, R192, R262: under every configuration the transaction-level command is the clock-edge machine at the command's
completion edge: accept, then as many edges as the schedule gives the command, whatever the ports hold, reset aside; and a
step of the block is that transaction under its own configuration. The model's choices in it: the nominal schedule
(log entry 6), the input list (log entry 8), and, because whole states are equal, the latches (log entry 2) and the
values of CMD_L and CNT at completion (log entries 3 and 4). -/
def Obligations.TransactionIsItsClockEdges : Prop :=
  (∀ (c : Config) (p : InPorts) (s : State) (later : List InPorts),
    Accepts p s → (∀ q ∈ later, q.rst = false) → later.length = commandCycles c p.offer.cmd s.keyed →
    runEdges c (p :: later) s = runCommand c p.offer s) ∧
  (∀ (p : InPorts) (s : State) (rest : List InPorts), Accepts p s →
    step { s with inputs := p :: rest } = .next (runCommand Config.build p.offer { s with inputs := rest }))

/-! ### The invariant -/

/-- The state right after reset is consistent, under every configuration (its clauses on CNT and CMD_L in IDLE are log
entries 4 and 3). -/
def Obligations.ResetStateIsConsistent : Prop :=
  ∀ c : Config, Inv c State.reset

/-- Every clock edge keeps the invariant, under every configuration and with any values on the ports. Its clauses on CNT
in IDLE, on CMD_L and on the schedule are the model's choices (log entries 4, 3 and 6). -/
def Obligations.ClockEdgeKeepsConsistency : Prop :=
  ∀ (c : Config) (p : InPorts) (s : State), Inv c s → Inv c (clockEdge c p s)

/-- Every step keeps the invariant (the model's choices in it: log entries 3, 4 and 6; in step: log entries 8 and 9). -/
def Obligations.StepKeepsConsistency : Prop :=
  ∀ s t : State, Inv Config.build s → step s = .next t → Inv Config.build t

/-! ### The error path, at both levels -/

/-- R227: a command that fails, an illegal word or a GEN with KEYED = 0, changes nothing but DONE, ERRCODE and ERR: the
whole of State is otherwise as it was, by the transaction and by the two clock edges of the same command. KEY_L and FRAME_L
among it are the model's reading of R227 beside R190 (log entry 2). The premises on CNT and CMD_L hold in every idle state
that Inv allows (log entries 4 and 3), and two edges are the nominal schedule's (log entry 6). -/
def Obligations.FailedCommandChangesOnlyErrorFlags : Prop :=
  ∀ (c : Config) (p q : InPorts) (s : State), Accepts p s → q.rst = false → s.cnt = 0#8 → s.cmdL = 0#4 →
    (p.offer.cmd ∈ [0x4#4, 0x5#4, 0x6#4, 0x8#4, 0x9#4, 0xA#4, 0xB#4, 0xC#4, 0xD#4, 0xE#4, 0xF#4] →
      transact p.offer s = .next { s with done := true, errcode := .illegalCmd, err := true } ∧
      runEdges c [p, q] s = { s with done := true, errcode := .illegalCmd, err := true }) ∧
    (p.offer.cmd = 0x2#4 → s.keyed = false →
      transact p.offer s = .next { s with done := true, errcode := .notKeyed, err := true } ∧
      runEdges c [p, q] s = { s with done := true, errcode := .notKeyed, err := true })
end

