-- ==== Sys2Proof/Laws/State.lean ====
section
/-! SUPPORT. The record lemmas: for each named update of State, what each field holds afterwards. All true by rfl. -/

namespace Sys2Proof.Machine

/-! ### `State.enter`: PHASE entered with CNT = 0 -/

@[simp] theorem State.enter_cipher (s : State) (ph : Phase) : (s.enter ph).cipher = s.cipher := rfl
@[simp] theorem State.enter_ksDl (s : State) (ph : Phase) : (s.enter ph).ksDl = s.ksDl := rfl
@[simp] theorem State.enter_ksUl (s : State) (ph : Phase) : (s.enter ph).ksUl = s.ksUl := rfl
@[simp] theorem State.enter_keyed (s : State) (ph : Phase) : (s.enter ph).keyed = s.keyed := rfl
@[simp] theorem State.enter_done (s : State) (ph : Phase) : (s.enter ph).done = s.done := rfl
@[simp] theorem State.enter_err (s : State) (ph : Phase) : (s.enter ph).err = s.err := rfl
@[simp] theorem State.enter_errcode (s : State) (ph : Phase) : (s.enter ph).errcode = s.errcode := rfl
@[simp] theorem State.enter_phase (s : State) (ph : Phase) : (s.enter ph).phase = ph := rfl
@[simp] theorem State.enter_cnt (s : State) (ph : Phase) : (s.enter ph).cnt = 0#8 := rfl
@[simp] theorem State.enter_keyL (s : State) (ph : Phase) : (s.enter ph).keyL = s.keyL := rfl
@[simp] theorem State.enter_frameL (s : State) (ph : Phase) : (s.enter ph).frameL = s.frameL := rfl
@[simp] theorem State.enter_cmdL (s : State) (ph : Phase) : (s.enter ph).cmdL = s.cmdL := rfl
@[simp] theorem State.enter_inputs (s : State) (ph : Phase) : (s.enter ph).inputs = s.inputs := rfl

/-! ### `State.sample`: the sampled ports -/

@[simp] theorem State.sample_cipher (s : State) (p : Command) : (s.sample p).cipher = s.cipher := rfl
@[simp] theorem State.sample_ksDl (s : State) (p : Command) : (s.sample p).ksDl = s.ksDl := rfl
@[simp] theorem State.sample_ksUl (s : State) (p : Command) : (s.sample p).ksUl = s.ksUl := rfl
@[simp] theorem State.sample_keyed (s : State) (p : Command) : (s.sample p).keyed = s.keyed := rfl
@[simp] theorem State.sample_done (s : State) (p : Command) : (s.sample p).done = s.done := rfl
@[simp] theorem State.sample_err (s : State) (p : Command) : (s.sample p).err = s.err := rfl
@[simp] theorem State.sample_errcode (s : State) (p : Command) : (s.sample p).errcode = s.errcode := rfl
@[simp] theorem State.sample_phase (s : State) (p : Command) : (s.sample p).phase = s.phase := rfl
@[simp] theorem State.sample_cnt (s : State) (p : Command) : (s.sample p).cnt = s.cnt := rfl
@[simp] theorem State.sample_keyL (s : State) (p : Command) :
    (s.sample p).keyL = if commandCode p.cmd s.keyed = .none then p.key else s.keyL := rfl
@[simp] theorem State.sample_frameL (s : State) (p : Command) :
    (s.sample p).frameL = if commandCode p.cmd s.keyed = .none then p.frame else s.frameL := rfl
@[simp] theorem State.sample_cmdL (s : State) (p : Command) : (s.sample p).cmdL = p.cmd := rfl
@[simp] theorem State.sample_inputs (s : State) (p : Command) : (s.sample p).inputs = s.inputs := rfl

/-! ### `State.complete`: completion -/

@[simp] theorem State.complete_cipher (s : State) (code : ErrCode) : (s.complete code).cipher = s.cipher := rfl
@[simp] theorem State.complete_ksDl (s : State) (code : ErrCode) : (s.complete code).ksDl = s.ksDl := rfl
@[simp] theorem State.complete_ksUl (s : State) (code : ErrCode) : (s.complete code).ksUl = s.ksUl := rfl
@[simp] theorem State.complete_keyed (s : State) (code : ErrCode) : (s.complete code).keyed = s.keyed := rfl
@[simp] theorem State.complete_done (s : State) (code : ErrCode) : (s.complete code).done = true := rfl
@[simp] theorem State.complete_err (s : State) (code : ErrCode) : (s.complete code).err = errAfter s.err code := rfl
@[simp] theorem State.complete_errcode (s : State) (code : ErrCode) : (s.complete code).errcode = code := rfl
@[simp] theorem State.complete_phase (s : State) (code : ErrCode) : (s.complete code).phase = .idle := rfl
@[simp] theorem State.complete_cnt (s : State) (code : ErrCode) : (s.complete code).cnt = 0#8 := rfl
@[simp] theorem State.complete_keyL (s : State) (code : ErrCode) : (s.complete code).keyL = s.keyL := rfl
@[simp] theorem State.complete_frameL (s : State) (code : ErrCode) : (s.complete code).frameL = s.frameL := rfl
@[simp] theorem State.complete_cmdL (s : State) (code : ErrCode) : (s.complete code).cmdL = 0#4 := rfl
@[simp] theorem State.complete_inputs (s : State) (code : ErrCode) : (s.complete code).inputs = s.inputs := rfl

/-! ### `State.beginInit`: INIT's accepting edge -/

@[simp] theorem State.beginInit_cipher (s : State) : s.beginInit.cipher = CipherState.zero := rfl
@[simp] theorem State.beginInit_ksDl (s : State) : s.beginInit.ksDl = 0#114 := rfl
@[simp] theorem State.beginInit_ksUl (s : State) : s.beginInit.ksUl = 0#114 := rfl
@[simp] theorem State.beginInit_keyed (s : State) : s.beginInit.keyed = false := rfl
@[simp] theorem State.beginInit_done (s : State) : s.beginInit.done = s.done := rfl
@[simp] theorem State.beginInit_err (s : State) : s.beginInit.err = s.err := rfl
@[simp] theorem State.beginInit_errcode (s : State) : s.beginInit.errcode = s.errcode := rfl
@[simp] theorem State.beginInit_phase (s : State) : s.beginInit.phase = s.phase := rfl
@[simp] theorem State.beginInit_cnt (s : State) : s.beginInit.cnt = s.cnt := rfl
@[simp] theorem State.beginInit_keyL (s : State) : s.beginInit.keyL = s.keyL := rfl
@[simp] theorem State.beginInit_frameL (s : State) : s.beginInit.frameL = s.frameL := rfl
@[simp] theorem State.beginInit_cmdL (s : State) : s.beginInit.cmdL = s.cmdL := rfl
@[simp] theorem State.beginInit_inputs (s : State) : s.beginInit.inputs = s.inputs := rfl

/-! ### `State.finishInit`: INIT's completion -/

@[simp] theorem State.finishInit_cipher (s : State) : s.finishInit.cipher = s.cipher := rfl
@[simp] theorem State.finishInit_ksDl (s : State) : s.finishInit.ksDl = s.ksDl := rfl
@[simp] theorem State.finishInit_ksUl (s : State) : s.finishInit.ksUl = s.ksUl := rfl
@[simp] theorem State.finishInit_keyed (s : State) : s.finishInit.keyed = true := rfl
@[simp] theorem State.finishInit_done (s : State) : s.finishInit.done = true := rfl
@[simp] theorem State.finishInit_err (s : State) : s.finishInit.err = errAfter s.err .none := rfl
@[simp] theorem State.finishInit_errcode (s : State) : s.finishInit.errcode = .none := rfl
@[simp] theorem State.finishInit_phase (s : State) : s.finishInit.phase = .idle := rfl
@[simp] theorem State.finishInit_cnt (s : State) : s.finishInit.cnt = 0#8 := rfl
@[simp] theorem State.finishInit_keyL (s : State) : s.finishInit.keyL = s.keyL := rfl
@[simp] theorem State.finishInit_frameL (s : State) : s.finishInit.frameL = s.frameL := rfl
@[simp] theorem State.finishInit_cmdL (s : State) : s.finishInit.cmdL = 0#4 := rfl
@[simp] theorem State.finishInit_inputs (s : State) : s.finishInit.inputs = s.inputs := rfl

/-! ### `State.finishGen`: GEN's completion -/

@[simp] theorem State.finishGen_cipher (s : State) : s.finishGen.cipher = s.cipher := rfl
@[simp] theorem State.finishGen_ksDl (s : State) : s.finishGen.ksDl = s.ksDl := rfl
@[simp] theorem State.finishGen_ksUl (s : State) : s.finishGen.ksUl = s.ksUl := rfl
@[simp] theorem State.finishGen_keyed (s : State) : s.finishGen.keyed = false := rfl
@[simp] theorem State.finishGen_done (s : State) : s.finishGen.done = true := rfl
@[simp] theorem State.finishGen_err (s : State) : s.finishGen.err = errAfter s.err .none := rfl
@[simp] theorem State.finishGen_errcode (s : State) : s.finishGen.errcode = .none := rfl
@[simp] theorem State.finishGen_phase (s : State) : s.finishGen.phase = .idle := rfl
@[simp] theorem State.finishGen_cnt (s : State) : s.finishGen.cnt = 0#8 := rfl
@[simp] theorem State.finishGen_keyL (s : State) : s.finishGen.keyL = s.keyL := rfl
@[simp] theorem State.finishGen_frameL (s : State) : s.finishGen.frameL = s.frameL := rfl
@[simp] theorem State.finishGen_cmdL (s : State) : s.finishGen.cmdL = 0#4 := rfl
@[simp] theorem State.finishGen_inputs (s : State) : s.finishGen.inputs = s.inputs := rfl

/-! ### `State.resetBlock`: reset -/

@[simp] theorem State.resetBlock_cipher (s : State) : s.resetBlock.cipher = CipherState.zero := rfl
@[simp] theorem State.resetBlock_ksDl (s : State) : s.resetBlock.ksDl = 0#114 := rfl
@[simp] theorem State.resetBlock_ksUl (s : State) : s.resetBlock.ksUl = 0#114 := rfl
@[simp] theorem State.resetBlock_keyed (s : State) : s.resetBlock.keyed = false := rfl
@[simp] theorem State.resetBlock_done (s : State) : s.resetBlock.done = false := rfl
@[simp] theorem State.resetBlock_err (s : State) : s.resetBlock.err = false := rfl
@[simp] theorem State.resetBlock_errcode (s : State) : s.resetBlock.errcode = .none := rfl
@[simp] theorem State.resetBlock_phase (s : State) : s.resetBlock.phase = .idle := rfl
@[simp] theorem State.resetBlock_cnt (s : State) : s.resetBlock.cnt = 0#8 := rfl
@[simp] theorem State.resetBlock_keyL (s : State) : s.resetBlock.keyL = 0#64 := rfl
@[simp] theorem State.resetBlock_frameL (s : State) : s.resetBlock.frameL = 0#22 := rfl
@[simp] theorem State.resetBlock_cmdL (s : State) : s.resetBlock.cmdL = 0#4 := rfl
@[simp] theorem State.resetBlock_inputs (s : State) : s.resetBlock.inputs = s.inputs := rfl

/-! ### BUSY as a view of PHASE -/

@[simp] theorem State.busy_enter (s : State) (ph : Phase) : (s.enter ph).busy = (ph != .idle) := rfl
@[simp] theorem State.busy_sample (s : State) (p : Command) : (s.sample p).busy = s.busy := rfl
@[simp] theorem State.busy_beginInit (s : State) : s.beginInit.busy = s.busy := rfl
@[simp] theorem State.busy_complete (s : State) (code : ErrCode) : (s.complete code).busy = false := rfl
@[simp] theorem State.busy_finishInit (s : State) : s.finishInit.busy = false := rfl
@[simp] theorem State.busy_finishGen (s : State) : s.finishGen.busy = false := rfl
@[simp] theorem State.busy_resetBlock (s : State) : s.resetBlock.busy = false := rfl

theorem State.busy_eq_false_iff (s : State) : s.busy = false ↔ s.phase = .idle := by
  simp [State.busy]

theorem State.busy_eq_true_iff (s : State) : s.busy = true ↔ s.phase ≠ .idle := by
  simp [State.busy]

@[simp] theorem errAfter_none (e : Bool) : errAfter e .none = e := by simp [errAfter]
@[simp] theorem errAfter_illegalCmd (e : Bool) : errAfter e .illegalCmd = true := by simp [errAfter]
@[simp] theorem errAfter_notKeyed (e : Bool) : errAfter e .notKeyed = true := by simp [errAfter]

end Sys2Proof.Machine
end

