-- ==== Sys2Proof/Laws/Ops.lean ====
section
/-! SUPPORT. One lemma per shared operation: the bits of a shift and of a buffer write, the loop and its trace, parity. -/

namespace Sys2Proof.Machine

theorem getLsbD_ofBool_setWidth (w : Nat) (b : Bool) (i : Nat) :
    ((BitVec.ofBool b).setWidth w).getLsbD i = (decide (i < w) && decide (i = 0) && b) := by
  rw [BitVec.getLsbD_setWidth]
  cases b <;> by_cases h : i = 0 <;> simp [BitVec.getLsbD, BitVec.ofBool, h, Nat.testBit, Nat.shiftRight_eq_div_pow]
  rcases i with _ | i
  · exact absurd rfl h
  · intro _
    have : 1 / 2 ^ (i + 1) = 0 := Nat.div_eq_of_lt (Nat.one_lt_two_pow (by omega))
    simp [this]

/-- Bit 0 is the incoming bit; every other bit moves up one place, and the top bit is lost. -/
theorem getLsbD_shiftIn {w : Nat} (r : BitVec w) (b : Bool) (i : Nat) :
    (shiftIn r b).getLsbD i = (decide (i < w) && (if i = 0 then b else r.getLsbD (i - 1))) := by
  unfold shiftIn
  rw [BitVec.getLsbD_or, BitVec.getLsbD_shiftLeft, getLsbD_ofBool_setWidth]
  by_cases hw : i < w <;> by_cases h0 : i = 0 <;> simp_all

/-- A buffer write changes one bit, and none outside the word. -/
theorem getLsbD_setBit {w : Nat} (v : BitVec w) (i : Nat) (b : Bool) (j : Nat) :
    (setBit v i b).getLsbD j = (if j = i then decide (j < w) && b else v.getLsbD j) := by
  unfold setBit
  rw [BitVec.getLsbD_or, BitVec.getLsbD_and, BitVec.getLsbD_not, BitVec.getLsbD_shiftLeft, BitVec.getLsbD_shiftLeft,
    getLsbD_ofBool_setWidth, BitVec.getLsbD_one]
  by_cases h : j = i
  · subst h
    by_cases hw : j < w
    · have h0 : 0 < w := by omega
      simp [hw, h0]
    · simp [hw, BitVec.getLsbD_of_ge v j (by omega)]
  · by_cases hw : j < w
    · rcases Nat.lt_or_gt_of_ne h with h' | h'
      · simp [hw, h, h']
      · have h1 : ¬ j < i := by omega
        have h2 : j - i ≠ 0 := by omega
        simp [hw, h, h1, h2]
    · simp [hw, h, BitVec.getLsbD_of_ge v j (by omega)]

/-! ### The loop and its trace -/

variable {α : Type}

@[simp] theorem iter_zero (f : Nat → α → α) (i : Nat) (a : α) : iter f 0 i a = a := rfl

theorem iter_succ (f : Nat → α → α) (n i : Nat) (a : α) : iter f (n + 1) i a = iter f n (i + 1) (f i a) := rfl

/-- The last iteration comes last. -/
theorem iter_last (f : Nat → α → α) (n i : Nat) (a : α) : iter f (n + 1) i a = f (i + n) (iter f n i a) := by
  induction n generalizing i a with
  | zero => rfl
  | succ n ih => rw [iter_succ, ih, iter_succ]; congr 1; omega

/-- A loop cut in two. -/
theorem iter_add (f : Nat → α → α) (m n i : Nat) (a : α) :
    iter f (m + n) i a = iter f n (i + m) (iter f m i a) := by
  induction n with
  | zero => rfl
  | succ n ih => rw [← Nat.add_assoc, iter_last, ih, iter_last, Nat.add_assoc]

/-- An invariant that every iteration keeps holds after the loop. -/
theorem iter_keeps (P : Nat → α → Prop) (f : Nat → α → α) (n i : Nat) (a : α)
    (step : ∀ k x, i ≤ k → k < i + n → P k x → P (k + 1) (f k x)) (h : P i a) : P (i + n) (iter f n i a) := by
  induction n with
  | zero => exact h
  | succ n ih =>
    rw [iter_last]
    exact step (i + n) _ (by omega) (by omega) (ih (fun k x h1 h2 => step k x h1 (by omega)))

/-- Two loops whose bodies agree on the loop's indexes give the same value. -/
theorem iter_congr (f g : Nat → α → α) (n i : Nat) (a : α)
    (h : ∀ k x, i ≤ k → k < i + n → f k x = g k x) : iter f n i a = iter g n i a := by
  induction n with
  | zero => rfl
  | succ n ih => rw [iter_last, iter_last, ih (fun k x h1 h2 => h k x h1 (by omega)), h _ _ (by omega) (by omega)]

@[simp] theorem length_scan (f : Nat → α → α) (n i : Nat) (a : α) : (scan f n i a).length = n := by
  induction n generalizing i a with
  | zero => rfl
  | succ n ih => simp [scan, ih]

/-- Element j of a loop's trace is the value after j + 1 iterations. -/
theorem getElem?_scan (f : Nat → α → α) (n i : Nat) (a : α) (j : Nat) (h : j < n) :
    (scan f n i a)[j]? = some (iter f (j + 1) i a) := by
  induction n generalizing i a j with
  | zero => omega
  | succ n ih =>
    cases j with
    | zero => rfl
    | succ j => rw [scan, List.getElem?_cons_succ, ih (i + 1) (f i a) j (by omega)]; rfl

/-- A trace's last element is the loop's result. -/
theorem getLast?_scan (f : Nat → α → α) (n i : Nat) (a : α) :
    (scan f (n + 1) i a).getLast? = some (iter f (n + 1) i a) := by
  rw [List.getLast?_eq_getElem?, length_scan]
  exact getElem?_scan f (n + 1) i a n (by omega)

/-- A word given bit by bit has those bits. -/
theorem getLsbD_bitsOf (w : Nat) (f : Nat → Bool) (i : Nat) : (bitsOf w f).getLsbD i = (decide (i < w) && f i) := by
  have h := iter_keeps (fun k (v : BitVec w) => ∀ j, v.getLsbD j = (decide (j < k) && decide (j < w) && f j))
    (fun i v => setBit v i (f i)) w 0 0#w (by
      intro k v _ _ ih j
      rw [getLsbD_setBit, ih]
      by_cases hj : j = k
      · subst hj; simp
      · have : (j < k + 1) = (j < k) := by apply propext; omega
        simp [hj, this]) (by simp)
  have h := h i
  unfold bitsOf
  rw [h]; simp

/-! ### Parity -/

theorem xorBits_zero {w : Nat} (n : Nat) : xorBits (0#w) n = false := by
  induction n with
  | zero => rfl
  | succ n ih => simp [xorBits, ih]

theorem xorBits_xor {w : Nat} (a b : BitVec w) (n : Nat) : xorBits (a ^^^ b) n = (xorBits a n ^^ xorBits b n) := by
  induction n with
  | zero => rfl
  | succ n ih =>
    simp only [xorBits, ih, BitVec.getLsbD_xor]
    cases xorBits a n <;> cases xorBits b n <;> cases a.getLsbD n <;> cases b.getLsbD n <;> rfl

theorem parity_xor {w : Nat} (a b : BitVec w) : parity (a ^^^ b) = (parity a ^^ parity b) := xorBits_xor a b w

@[simp] theorem parity_zero {w : Nat} : parity (0#w) = false := xorBits_zero w

/-- The shift is linear over GF(2) in the register and the incoming bit together. -/
theorem shiftIn_xor {w : Nat} (a b : BitVec w) (x y : Bool) :
    shiftIn (a ^^^ b) (x ^^ y) = shiftIn a x ^^^ shiftIn b y := by
  apply BitVec.eq_of_getLsbD_eq
  intro i hi
  rw [BitVec.getLsbD_xor, getLsbD_shiftIn, getLsbD_shiftIn, getLsbD_shiftIn, BitVec.getLsbD_xor]
  by_cases h : i = 0
  · have h0 : 0 < w := by omega
    simp [h, h0]
  · by_cases hw : i < w <;> simp [hw, h]

end Sys2Proof.Machine
end

