-- ==== Sys2Proof/Laws/Step.lean ====
section
/-! SUPPORT. What exec, one edge and one step can do, said once; the proofs about a step cite these. -/

namespace Sys2Proof.Machine

/-! ### exec -/

theorem exec_nop (s : State) : exec .nop s = .next (s.complete .none) := rfl

theorem exec_init (key : Key) (frame : Frame) (s : State) :
    exec (.init key frame) s = .next (runInit Config.build key frame s) := rfl

theorem exec_gen (s : State) : exec .gen s = .next (runGen Config.build s) := rfl

theorem exec_stepM (s : State) : exec .stepM s = .next (runStepCommand Config.build false s) := rfl

theorem exec_stepF (s : State) : exec .stepF s = .next (runStepCommand Config.build true s) := rfl

/-- Each field after INIT (R140). -/
theorem runInit_eq (c : Config) (key : Key) (frame : Frame) (s : State) :
    runInit c key frame s =
      { s with cipher := initCipher c key frame, ksDl := 0#114, ksUl := 0#114, keyed := true, done := true
               err := s.err, errcode := .none, phase := .idle, cnt := 0#8, keyL := key, frameL := frame
               cmdL := 0#4 } := by
  simp [runInit, State.finishInit, State.beginInit, State.complete, State.enter]

/-- Each field after a GEN with KEYED = 1 (R170). -/
theorem runGen_keyed (c : Config) (s : State) (h : s.keyed = true) :
    runGen c s =
      { s with cipher := (genDirection c s.ksUl (genDirection c s.ksDl s.cipher).2).2
               ksDl := (genDirection c s.ksDl s.cipher).1
               ksUl := (genDirection c s.ksUl (genDirection c s.ksDl s.cipher).2).1
               keyed := false, done := true, err := s.err, errcode := .none, phase := .idle, cnt := 0#8
               cmdL := 0#4 } := by
  simp [runGen, h, State.finishGen, State.complete, State.enter]

/-- A GEN with KEYED = 0 only completes, with NOT_KEYED (R223). -/
theorem runGen_notKeyed (c : Config) (s : State) (h : s.keyed = false) : runGen c s = s.complete .notKeyed := by
  simp [runGen, h]

/-! ### One accepted command -/

/-- A command succeeds exactly when its word is legal and it is no GEN with KEYED = 0. -/
theorem commandCode_eq_none_iff (w : CmdWord) (keyed : Bool) :
    commandCode w keyed = .none ↔ ∃ o, decodeWord w = .ok o ∧ (o = .gen → keyed = true) := by
  unfold commandCode
  cases decodeWord w with
  | error e => simp
  | ok o => cases o <;> cases keyed <;> simp

/-- A command that does not fail latches KEY and FRAME (R190). -/
theorem State.sample_of_succeeds (s : State) (p : Command) (h : commandCode p.cmd s.keyed = .none) :
    s.sample p = { s with cmdL := p.cmd, keyL := p.key, frameL := p.frame } := by
  simp [State.sample, h]

/-- A command that fails leaves the latches (R227). -/
theorem State.sample_of_fails (s : State) (p : Command) (h : commandCode p.cmd s.keyed ≠ .none) :
    s.sample p = { s with cmdL := p.cmd } := by
  simp [State.sample, h]

/-- A legal command is its meaning, in the state that has sampled it. -/
theorem transact_ok (p : Command) (s : State) (i : Instr) (h : decode p = .ok i) :
    transact p s = exec i (s.sample p) := by
  simp [transact, h]

/-- An illegal word takes the error path. -/
theorem transact_error (p : Command) (s : State) (e : IllegalWord) (h : decode p = .error e) :
    transact p s = .next (runIllegal (s.sample p)) := by
  simp [transact, h]

/-- decode's verdict is decodeWord's. -/
theorem decode_ok_iff (p : Command) (i : Instr) :
    decode p = .ok i ↔ ∃ o, decodeWord p.cmd = .ok o ∧ i = o.withOperands p := by
  unfold decode
  cases h : decodeWord p.cmd with
  | error e => simp
  | ok o => simp [eq_comm]

theorem decode_error_iff (p : Command) (e : IllegalWord) : decode p = .error e ↔ decodeWord p.cmd = .error e := by
  unfold decode
  cases h : decodeWord p.cmd <;> simp

/-! ### One edge of a running command -/

/-- An edge with BUSY = 1 performs the micro-step, then counts on or ends the phase. -/
theorem busyEdge_cases (c : Config) (s : State) :
    (s.cnt.toNat + 1 < phaseCount c s.phase ∧ busyEdge c s = { s.microStep c with cnt := s.cnt + 1#8 }) ∨
    (phaseCount c s.phase ≤ s.cnt.toNat + 1 ∧ busyEdge c s = (s.microStep c).phaseEnd c) := by
  by_cases h : s.cnt.toNat + 1 < phaseCount c s.phase
  · exact .inl ⟨h, by simp [busyEdge, h]⟩
  · exact .inr ⟨by omega, by simp [busyEdge, h]⟩

@[simp] theorem microStep_phase (c : Config) (s : State) : (s.microStep c).phase = s.phase := by
  unfold State.microStep; split <;> simp_all

@[simp] theorem microStep_cnt (c : Config) (s : State) : (s.microStep c).cnt = s.cnt := by
  unfold State.microStep; split <;> rfl

@[simp] theorem microStep_keyed (c : Config) (s : State) : (s.microStep c).keyed = s.keyed := by
  unfold State.microStep; split <;> rfl

@[simp] theorem microStep_done (c : Config) (s : State) : (s.microStep c).done = s.done := by
  unfold State.microStep; split <;> rfl

@[simp] theorem microStep_err (c : Config) (s : State) : (s.microStep c).err = s.err := by
  unfold State.microStep; split <;> rfl

@[simp] theorem microStep_errcode (c : Config) (s : State) : (s.microStep c).errcode = s.errcode := by
  unfold State.microStep; split <;> rfl

@[simp] theorem microStep_keyL (c : Config) (s : State) : (s.microStep c).keyL = s.keyL := by
  unfold State.microStep; split <;> rfl

@[simp] theorem microStep_frameL (c : Config) (s : State) : (s.microStep c).frameL = s.frameL := by
  unfold State.microStep; split <;> rfl

@[simp] theorem microStep_cmdL (c : Config) (s : State) : (s.microStep c).cmdL = s.cmdL := by
  unfold State.microStep; split <;> rfl

@[simp] theorem microStep_inputs (c : Config) (s : State) : (s.microStep c).inputs = s.inputs := by
  unfold State.microStep; split <;> rfl

/-- What the last edge of a phase leaves: the next phase, or a completed command. -/
theorem phaseEnd_cases (c : Config) (s : State) (h : s.phase ≠ .idle) :
    (s.phase = .keyload ∧ c.loadMode = .intended ∧ s.phaseEnd c = s.enter .frame) ∨
    (s.phase = .frame ∧ s.phaseEnd c = s.enter .discard) ∨
    (s.phase = .genDl ∧ s.phaseEnd c = s.enter .genUl) ∨
    (((s.phase = .keyload ∧ c.loadMode = .artifact) ∨ s.phase = .discard) ∧ s.phaseEnd c = s.finishInit) ∨
    (s.phase = .genUl ∧ s.phaseEnd c = s.finishGen) ∨
    (s.phase = .step ∧ s.phaseEnd c = s.complete .none) ∨
    (s.phase = .unit ∧ s.phaseEnd c = s.complete (commandCode s.cmdL s.keyed)) := by
  cases hp : s.phase <;> cases hm : c.loadMode <;> simp_all [State.phaseEnd]

/-- An edge with BUSY = 1, phase by phase: it counts on, enters the next phase, or completes the command. -/
theorem busyEdge_inv (c : Config) (s : State) (hb : s.busy = true) :
    (s.cnt.toNat + 1 < phaseCount c s.phase ∧ busyEdge c s = { s.microStep c with cnt := s.cnt + 1#8 }) ∨
    (phaseCount c s.phase ≤ s.cnt.toNat + 1 ∧
      ((s.phase = .keyload ∧ c.loadMode = .intended ∧ busyEdge c s = (s.microStep c).enter .frame) ∨
       (s.phase = .frame ∧ busyEdge c s = (s.microStep c).enter .discard) ∨
       (s.phase = .genDl ∧ busyEdge c s = (s.microStep c).enter .genUl) ∨
       (((s.phase = .keyload ∧ c.loadMode = .artifact) ∨ s.phase = .discard) ∧
          busyEdge c s = (s.microStep c).finishInit) ∨
       (s.phase = .genUl ∧ busyEdge c s = (s.microStep c).finishGen) ∨
       (s.phase = .step ∧ busyEdge c s = (s.microStep c).complete .none) ∨
       (s.phase = .unit ∧ busyEdge c s = (s.microStep c).complete (commandCode s.cmdL s.keyed)))) := by
  rcases busyEdge_cases c s with ⟨h, e⟩ | ⟨h, e⟩
  · exact .inl ⟨h, e⟩
  · have := phaseEnd_cases c (s.microStep c) (by simpa using (State.busy_eq_true_iff s).1 hb)
    rw [← e] at this
    exact .inr ⟨h, by simpa using this⟩

/-- What every edge of a running command keeps, running it to its completion keeps. -/
theorem finishRunning_keeps (P : State → Prop) (c : Config)
    (edge : ∀ x : State, x.busy = true → P x → P (busyEdge c x)) (s : State) (h : P s) : P (finishRunning c s) := by
  unfold finishRunning
  refine iter_keeps (fun _ x => P x) _ 228 0 s (fun k x _ _ hx => ?_) h
  by_cases hb : x.busy = true
  · simp only [hb, if_true]; exact edge x hb hx
  · simp only [hb]; exact hx

/-- An idle block has nothing to finish. -/
theorem finishRunning_idle (c : Config) (s : State) (h : s.busy = false) : finishRunning c s = s :=
  (finishRunning_keeps (fun x => x = s) c (fun x hb hx => by rw [hx, h] at hb; cases hb) s rfl)

/-! ### One edge -/

/-- What one clock edge does: reset, a running command's edge, an acceptance, or nothing. -/
theorem clockEdge_cases (c : Config) (p : InPorts) (s : State) :
    (p.rst = true ∧ clockEdge c p s = s.resetBlock) ∨
    (p.rst = false ∧ s.busy = true ∧ clockEdge c p s = busyEdge c s) ∨
    (Accepts p s ∧ clockEdge c p s = acceptEdge p.offer s) ∨
    (p.rst = false ∧ s.busy = false ∧ p.cmdValid = false ∧ clockEdge c p s = s) := by
  cases h1 : p.rst <;> cases h2 : s.busy <;> cases h3 : p.cmdValid <;> simp [clockEdge, Accepts, h1, h2, h3]

/-- Each field after an accepting edge. -/
theorem acceptEdge_eq (p : Command) (s : State) :
    acceptEdge p s =
      { (if decodeWord p.cmd = .ok .init then (s.sample p).beginInit else s.sample p) with
        phase := firstPhase p.cmd s.keyed, cnt := 0#8, done := false } :=
  rfl

/-! ### One step -/

/-- What one step answers, by what the host drives and whether a command is running. -/
theorem step_cases (s : State) :
    (s.inputs = [] ∧ step s = .next (if s.busy then finishRunning Config.build s else s)) ∨
    (∃ p rest, s.inputs = p :: rest ∧
      ((p.rst = true ∧ step s = .next { s with inputs := rest }.resetBlock) ∨
       (p.rst = false ∧ s.busy = true ∧ step s = .next (finishRunning Config.build s)) ∨
       (p.rst = false ∧ s.busy = false ∧ p.cmdValid = true ∧ step s = transact p.offer { s with inputs := rest }) ∨
       (p.rst = false ∧ s.busy = false ∧ p.cmdValid = false ∧ step s = .next { s with inputs := rest }))) := by
  cases hi : s.inputs with
  | nil => exact .inl ⟨rfl, by simp [step, hostTransaction, hi]⟩
  | cons p rest =>
    refine .inr ⟨p, rest, rfl, ?_⟩
    by_cases hr : p.rst <;> by_cases hb : s.busy <;> by_cases hv : p.cmdValid <;>
      simp [step, hostTransaction, hi, hr, hb, hv]

/-- A run of n + 1 steps whose first step answers t is a run of n steps from t. -/
theorem core_run_next (M : Host.Core) (n : Nat) (s t : M.State) (h : M.step s = .next t) :
    M.run (n + 1) s = M.run n t := by
  rw [Host.Core.run.eq_def]
  simp only [h]

/-- The same for this machine. -/
theorem run_next (n : Nat) (s t : State) (h : step s = .next t) :
    Host.Core.run Sys2Proof.core (n + 1) s = Host.Core.run Sys2Proof.core n t :=
  core_run_next Sys2Proof.core n s t h

end Sys2Proof.Machine
end

