-- ==== Sys2Proof/Laws/Datapath.lean ====
section
/-! SUPPORT. The loops of INIT and GEN register by register and bit by bit, the decoder's verdicts word by word, and what
a micro-step can change. -/

namespace Sys2Proof.Machine

/-! ### Loading loops -/

/-- A register shifted n times from zero holds the last incoming bits, the newest in bit 0. -/
theorem getLsbD_iter_shiftIn {w : Nat} (f : Nat → Bool) (n j : Nat) :
    (iter (fun i (r : BitVec w) => shiftIn r (f i)) n 0 0#w).getLsbD j =
      (decide (j < w) && decide (j < n) && f (n - 1 - j)) := by
  induction n generalizing j with
  | zero => simp
  | succ n ih =>
    rw [iter_last, getLsbD_shiftIn]
    by_cases h0 : j = 0
    · subst h0; simp
    · rw [if_neg h0, ih, show n - 1 - (j - 1) = n + 1 - 1 - j by omega]
      by_cases h1 : j < w <;> by_cases h2 : j < n + 1 <;> simp [h1, h2] <;> intros <;> omega

/-- The ARTIFACT key loop, register by register. -/
theorem iter_artifactKeyStep (key : Key) (n i : Nat) (a : CipherState) :
    iter (artifactKeyStep key) n i a =
      ⟨iter (fun i r => shiftIn r (keyBitArtifact key i)) n i a.r1,
       iter (fun i r => shiftIn r (keyBitArtifact key i)) n i a.r2,
       iter (fun i r => shiftIn r (keyBitArtifact key i)) n i a.r3⟩ := by
  induction n generalizing i a with
  | zero => rfl
  | succ n ih => rw [iter_succ, ih]; rfl

/-- The INTENDED key loop, register by register. -/
theorem iter_intendedKeyStep (key : Key) (n i : Nat) (a : CipherState) :
    iter (intendedKeyStep key) n i a =
      ⟨iter (fun i r => if i < 19 then shiftIn r (keyBitIntended1 key i) else r) n i a.r1,
       iter (fun i r => if i < 22 then shiftIn r (keyBitIntended2 key i) else r) n i a.r2,
       iter (fun i r => shiftIn r (keyBitIntended3 key i)) n i a.r3⟩ := by
  induction n generalizing i a with
  | zero => rfl
  | succ n ih => rw [iter_succ, ih]; rfl

/-- The frame-mixing loop, register by register. -/
theorem iter_frameMixStep (c : Config) (frame : Frame) (n i : Nat) (a : CipherState) :
    iter (frameMixStep c frame) n i a =
      ⟨iter (fun i r => advanceInj c.taps1 r (frame.getLsbD i)) n i a.r1,
       iter (fun i r => advanceInj c.taps2 r (frame.getLsbD i)) n i a.r2,
       iter (fun i r => advanceInj c.taps3 r (frame.getLsbD i)) n i a.r3⟩ := by
  induction n generalizing i a with
  | zero => rfl
  | succ n ih => rw [iter_succ, ih]; rfl

/-! ### Generation loops -/

theorem majoritySteps_succ (c : Config) (n : Nat) (x : CipherState) :
    majoritySteps c (n + 1) x = clockStep c (majoritySteps c n x) false := by
  unfold majoritySteps; rw [iter_last]

theorem majoritySteps_add (c : Config) (m n : Nat) (x : CipherState) :
    majoritySteps c (m + n) x = majoritySteps c n (majoritySteps c m x) := by
  induction n with
  | zero => rfl
  | succ n ih => rw [← Nat.add_assoc, majoritySteps_succ, ih, majoritySteps_succ]

/-- After n generation cycles: the CipherState has taken n majority steps, and bit i of the buffer is the output bit
after i of them. -/
theorem iter_genCycle (c : Config) (n : Nat) (buf : Keystream) (x : CipherState) :
    (iter (genCycle c) n 0 (buf, x)).2 = majoritySteps c n x ∧
    ∀ i, i < 114 → (iter (genCycle c) n 0 (buf, x)).1.getLsbD i =
      if i < n then outbit (majoritySteps c i x) else buf.getLsbD i := by
  induction n with
  | zero => simp [majoritySteps]
  | succ n ih =>
    rw [iter_last]
    simp only [genCycle, Nat.zero_add]
    refine ⟨by rw [ih.1, majoritySteps_succ], fun i hi => ?_⟩
    rw [getLsbD_setBit]
    by_cases e : i = n
    · subst e; simp [hi, ih.1]
    · rw [if_neg e, ih.2 i hi]
      by_cases h : i < n
      · simp [h, show i < n + 1 by omega]
      · simp [h, show ¬ i < n + 1 by omega]

/-! ### The decoder's verdicts -/

/-- The command word is 4 bits: a fact about it is sixteen. -/
theorem forall_cmdWord (P : CmdWord → Prop) (h : ∀ n : Fin 16, P (BitVec.ofFin n)) (w : CmdWord) : P w := h w.toFin

theorem decodeWord_init_iff (w : CmdWord) : decodeWord w = .ok .init ↔ w = 0x1#4 :=
  forall_cmdWord (fun w => decodeWord w = .ok .init ↔ w = 0x1#4) (by decide) w

theorem decodeWord_gen_iff (w : CmdWord) : decodeWord w = .ok .gen ↔ w = 0x2#4 :=
  forall_cmdWord (fun w => decodeWord w = .ok .gen ↔ w = 0x2#4) (by decide) w

theorem firstPhase_ne_idle (w : CmdWord) (keyed : Bool) : firstPhase w keyed ≠ .idle := by
  unfold firstPhase; split <;> simp; split <;> simp

/-! ### What a micro-step can change -/

theorem microStep_cipher_ne (c : Config) (s : State) (h : (s.microStep c).cipher ≠ s.cipher) :
    s.loading ∨ s.generating ∨ s.phase = .step := by
  revert h; unfold State.microStep; cases hp : s.phase <;> simp [State.loading, State.generating, hp]

theorem microStep_ksDl_ne (c : Config) (s : State) (h : (s.microStep c).ksDl ≠ s.ksDl) : s.phase = .genDl := by
  revert h; unfold State.microStep; cases hp : s.phase <;> simp

theorem microStep_ksUl_ne (c : Config) (s : State) (h : (s.microStep c).ksUl ≠ s.ksUl) : s.phase = .genUl := by
  revert h; unfold State.microStep; cases hp : s.phase <;> simp

/-! ### Several blocks (R67, R233) -/

/-- An edge of block k leaves every other block as it is. -/
theorem drive_other (k j : Nat) (p : InPorts) (blocks : List Block) (h : k ≠ j) :
    (drive k p blocks)[j]? = blocks[j]? := by
  simp [drive, h]

/-- An edge of block k is a clock edge of its state, under its own configuration. -/
theorem drive_self (k : Nat) (p : InPorts) (blocks : List Block) (b : Block) (h : blocks[k]? = some b) :
    (drive k p blocks)[k]? = some { b with state := clockEdge b.config p b.state } := by
  simp [drive, h]

end Sys2Proof.Machine
end

