-- ==== Sys2Proof/Laws/PerInstr.lean ====
section
/-! SUPPORT. What is said of every instruction as syntax, one lemma per constructor. -/

namespace Sys2Proof.Laws.LegalWord

/-- The encoder writes a well-formed command word (R71), and drives KEY and FRAME to 0 for every command but INIT
(R79). -/
def Statement (i : Instr) : Prop :=
  (encode i).wf = true ∧ ((encode i).cmd ≠ 0x1#4 → (encode i).key = 0#64 ∧ (encode i).frame = 0#22)

theorem nop : Statement .nop := by simp [Statement, encode, Command.wf]

theorem init (key : Key) (frame : Frame) : Statement (.init key frame) := by simp [Statement, encode, Command.wf]

theorem gen : Statement .gen := by simp [Statement, encode, Command.wf]

theorem stepM : Statement .stepM := by simp [Statement, encode, Command.wf]

theorem stepF : Statement .stepF := by simp [Statement, encode, Command.wf]

end Sys2Proof.Laws.LegalWord
end

