-- ==== Sys2Proof/Tests/Slice0.lean ====
section
/-! SUPPORT. The tests: expected values come from spec/95_test_vectors.md (T1 to T8, P1 to P3) or from the rule named.
`Config.withDefaults` holds the defaults those vectors assume. Then one witness per statement that has hypotheses. -/

namespace Sys2Proof.Tests

open Sys2Proof.Machine

/-! ### Decoding (30_encoding R71, R75; T7) -/

theorem test_decode_nop : decode ⟨0b0000#4, 0x1223456789ABCDEF#64, 0x134#22⟩ = .ok .nop := by decide

theorem test_decode_init :
    decode ⟨0b0001#4, 0x1223456789ABCDEF#64, 0x134#22⟩ = .ok (.init 0x1223456789ABCDEF#64 0x134#22) := by decide

theorem test_decode_gen : decode ⟨0b0010#4, 0#64, 0#22⟩ = .ok .gen := by decide

theorem test_decode_stepM : decode ⟨0b0011#4, 0#64, 0#22⟩ = .ok .stepM := by decide

theorem test_decode_stepF : decode ⟨0b0111#4, 0#64, 0#22⟩ = .ok .stepF := by decide

theorem test_decode_forced_gen_is_illegal : decode ⟨0b0110#4, 0#64, 0#22⟩ = .error .forceWithoutStep := by decide

theorem test_decode_reserved_bit_is_illegal : decode ⟨0b1111#4, 0#64, 0#22⟩ = .error .reservedBitSet := by decide

/-- Packed operands (log entry 11): KEY = 0x8000000000000001 and FRAME = 0x200001 show both ends of each port. -/
theorem test_decode_packed_operands :
    decodeTableWord 96 (0x1 + 2 ^ 4 * 0x8000000000000001 + 2 ^ 68 * 0x200001) =
      some (.init 0x8000000000000001#64 0x200001#22) := by decide

/-- R79: the triple of `INIT 0x1223456789ABCDEF, 0x134` (P1). -/
theorem test_encode_init :
    encode (.init 0x1223456789ABCDEF#64 0x134#22) = ⟨0x1#4, 0x1223456789ABCDEF#64, 0x134#22⟩ := by decide

/-! ### Well-formedness: an ill-formed term for each check -/

theorem test_wf_refuses_reserved_bit : Command.wf ⟨0x8#4, 0#64, 0#22⟩ = false := by decide

theorem test_wf_refuses_force_without_step : Command.wf ⟨0x5#4, 0#64, 0#22⟩ = false := by decide

theorem test_wf_accepts_forced_step : Command.wf ⟨0x7#4, 0#64, 0#22⟩ = true := by decide

theorem test_wf_refuses_long_key : AsmLine.wf (.init (List.replicate 17 1) [0]) = false := by decide

theorem test_wf_refuses_empty_key : AsmLine.wf (.session [] [0]) = false := by decide

theorem test_wf_refuses_empty_frame : AsmLine.wf (.init [0] []) = false := by decide

theorem test_wf_refuses_long_frame : AsmLine.wf (.init [0] (List.replicate 7 0)) = false := by decide

theorem test_wf_refuses_wide_frame : AsmLine.wf (.session [0] [4, 0, 0, 0, 0, 0]) = false := by decide

theorem test_wf_refuses_wide_cmd : AsmLine.wf (.cmd 16) = false := by decide

/-- A legal configuration, as written before elaboration. -/
def raw : RawConfig := ⟨0x7FFFF, 0x3FFFFF, 0x7FFFFF, 18, 21, 22, .artifact⟩

theorem test_wf_accepts_widest_config : raw.WellFormed := by decide

theorem test_wf_refuses_wide_taps :
    ¬ { raw with taps1 := 0x80000 }.WellFormed ∧ ¬ { raw with taps2 := 0x400000 }.WellFormed ∧
    ¬ { raw with taps3 := 0x800000 }.WellFormed := by decide

theorem test_wf_refuses_clock_bits_outside :
    ¬ { raw with clkbit1 := 19 }.WellFormed ∧ ¬ { raw with clkbit2 := 22 }.WellFormed ∧
    ¬ { raw with clkbit3 := 23 }.WellFormed := by decide

theorem test_elaborate_refuses : elaborate { raw with clkbit2 := 22 } = none := by decide

/-! ### The datapath (T1, T2, T3, S9) -/

theorem test_parity :
    parity 0x3#2 = false ∧ parity 0x7FFFFF#23 = true ∧ parity 0x072000#19 = false ∧
    parity 0xFFFFFFFFFFFFFFFF#64 = false := by decide +kernel

theorem test_advance1 :
    [0x00001#19, 0x40000#19, 0x7FFFF#19, 0x02000#19, 0x12345#19].map (advance1 (.withDefaults .artifact)) =
      [0x00002#19, 0x00001#19, 0x7FFFE#19, 0x04001#19, 0x2468A#19] := by decide

theorem test_advance2 :
    [0x200000#22, 0x100000#22, 0x300000#22, 0x155555#22].map (advance2 (.withDefaults .artifact)) =
      [0x000001#22, 0x200001#22, 0x200000#22, 0x2AAAAB#22] := by decide

theorem test_advance3 :
    [0x400000#23, 0x000080#23, 0x700080#23, 0x2AAAAA#23].map (advance3 (.withDefaults .artifact)) =
      [0x000001#23, 0x000101#23, 0x600100#23, 0x555554#23] := by decide

theorem test_advanceInj :
    advanceInj 0x072000#19 0x40000#19 true = 0x00000#19 ∧ advanceInj 0x300000#22 0x3FFFFF#22 true = 0x3FFFFF#22 ∧
    advanceInj 0x700080#23 0x123456#23 false = 0x2468AD#23 := by decide

theorem test_majority :
    (majority false false true = false ∧ majority false true true = true) ∧
    (majority true false false = false ∧ majority true false true = true ∧ majority true true false = true) := by decide

theorem test_outbit :
    outbit ⟨0x40000#19, 0#22, 0#23⟩ = true ∧ outbit ⟨0x40000#19, 0x200000#22, 0#23⟩ = false ∧
    outbit ⟨0x40000#19, 0x200000#22, 0x400000#23⟩ = true := by decide

/-! ### The commands -/

/-- A state with this CipherState, as if an INIT had loaded it. -/
def keyedWith (x : CipherState) : State := { State.reset with cipher := x, keyed := true, done := true }

/-- The state after a refused GEN from reset: STATUS = 0x2A (T8). -/
def refused : State := { State.reset with done := true, errcode := .notKeyed, err := true }

/-- T8: NOP after a refused GEN. -/
theorem test_nop_clears_errcode : execNop refused = .next { refused with errcode := .none } := rfl

/-- T5, ARTIFACT. -/
theorem test_init_artifact :
    (runInit (.withDefaults .artifact) 0x1223456789ABCDEF#64 0x134#22 refused).cipher =
      ⟨0x3CDEF#19, 0x2BCDEF#22, 0x2BCDEF#23⟩ ∧
    (runInit (.withDefaults .artifact) 0x1223456789ABCDEF#64 0x134#22 refused).status = 0x0E#8 := by decide +kernel

/-- T5, INTENDED: after the key load, after frame mixing, and after the discard phase. -/
theorem test_init_intended :
    keyloadIntended 0x1223456789ABCDEF#64 = ⟨0x0911A#19, 0x0ACF13#22, 0x2BCDEF#23⟩ ∧
    frameMix (.withDefaults .intended) 0x134#22 ⟨0x0911A#19, 0x0ACF13#22, 0x2BCDEF#23⟩ =
      ⟨0x58025#19, 0x147135#22, 0x59498F#23⟩ ∧
    (runInit (.withDefaults .intended) 0x1223456789ABCDEF#64 0x134#22 State.reset).cipher =
      ⟨0x6BD2E#19, 0x26AD69#22, 0x6F074E#23⟩ := by decide +kernel

/-- P1 and P2: both keystreams of a GEN, as bytes, and the registers it leaves. -/
theorem test_gen_artifact :
    let t := runGen (.withDefaults .artifact) (keyedWith ⟨0x3CDEF#19, 0x2BCDEF#22, 0x2BCDEF#23⟩)
    (List.range 15).map (byteView t.ksDl) =
      [0x86, 0xCD, 0x78, 0xE2, 0x78, 0xE6, 0x97, 0xD4, 0xA4, 0xC0, 0x5C, 0xF5, 0x2D, 0xC7, 0x40] ∧
    (List.range 15).map (byteView t.ksUl) =
      [0xC0, 0x35, 0x70, 0xD3, 0x70, 0xDD, 0x63, 0xD7, 0x51, 0x65, 0xE0, 0x21, 0xCD, 0xB0, 0x00] ∧
    t.cipher = ⟨0x5A660#19, 0x359888#22, 0x449A71#23⟩ ∧ t.status = 0x02#8 := by decide +kernel

theorem test_gen_intended :
    let t := runGen (.withDefaults .intended) (keyedWith ⟨0x6BD2E#19, 0x26AD69#22, 0x6F074E#23⟩)
    (List.range 15).map (byteView t.ksDl) =
      [0xB5, 0x79, 0x9B, 0xC4, 0x19, 0x25, 0x43, 0x94, 0x8E, 0xE7, 0xB3, 0xD6, 0x64, 0x6F, 0xC0] ∧
    (List.range 15).map (byteView t.ksUl) =
      [0xAC, 0x62, 0xE1, 0x55, 0xD0, 0x8F, 0x6F, 0x62, 0x0F, 0x62, 0x1A, 0xC9, 0x58, 0xA5, 0x80] ∧
    t.cipher = ⟨0x70AF7#19, 0x22F131#22, 0x096F9F#23⟩ ∧ t.status = 0x02#8 := by decide +kernel

/-- T4, row 011: R1 holds. -/
theorem test_stepM_two_agree :
    (runStepCommand (.withDefaults .artifact) false (keyedWith ⟨0x12245#19, 0x123456#22, 0x234567#23⟩)).cipher =
      ⟨0x12245#19, 0x2468AD#22, 0x468ACF#23⟩ := by decide

/-- T4, row 101: R2 holds. -/
theorem test_stepM_middle_holds :
    (runStepCommand (.withDefaults .artifact) false (keyedWith ⟨0x12345#19, 0x123056#22, 0x234567#23⟩)).cipher =
      ⟨0x2468A#19, 0x123056#22, 0x468ACF#23⟩ := by decide

/-- T4, row 011: all advance. -/
theorem test_stepF_all_advance :
    (runStepCommand (.withDefaults .artifact) true (keyedWith ⟨0x12245#19, 0x123456#22, 0x234567#23⟩)).cipher =
      ⟨0x2448A#19, 0x2468AD#22, 0x468ACF#23⟩ := by decide

/-- P4, line 4: STATUS stays 0x06. -/
theorem test_stepF_status :
    (runStepCommand (.withDefaults .artifact) true (keyedWith ⟨0x79BDE#19, 0x2F37BF#22, 0x2F37BD#23⟩)).status =
      0x06#8 := by decide

/-! ### Steps, illegal words and the assembler -/

/-- T8: GEN as the first command after reset is refused. -/
theorem test_step_refused_gen :
    step (State.reset.withFetchWord 8 0x2) = .next refused := rfl

/-- T8: an illegal word after a refused GEN. -/
theorem test_step_illegal_word :
    step (refused.withFetchWord 8 0x8) = .next { refused with errcode := .illegalCmd } := rfl

/-- R190: an accepted NOP, INIT or STEP.F latches KEY and FRAME, and so does a GEN that is carried out. -/
theorem test_acceptance_latches :
    (∀ w ∈ [0x0#4, 0x1#4, 0x7#4],
      (acceptEdge ⟨w, 5#64, 6#22⟩ refused).keyL = 5#64 ∧ (acceptEdge ⟨w, 5#64, 6#22⟩ refused).frameL = 6#22) ∧
    (acceptEdge ⟨0x2#4, 5#64, 6#22⟩ (keyedWith .zero)).keyL = 5#64 := by decide

/-- R227: an illegal word and a refused GEN leave the latches. -/
theorem test_failing_command_leaves_latches :
    ∀ w ∈ [0x2#4, 0x8#4],
      (acceptEdge ⟨w, 5#64, 6#22⟩ refused).keyL = 0#64 ∧ (acceptEdge ⟨w, 5#64, 6#22⟩ refused).frameL = 0#22 := by decide

/-- T8: word 0x6 with KEYED = 1 is ILLEGAL_CMD, not NOT_KEYED, and KEYED stays 1. -/
theorem test_illegal_keeps_keyed :
    (runCommand (.withDefaults .artifact) ⟨0x6#4, 0#64, 0#22⟩ (keyedWith .zero)).status = 0x1E#8 := by decide

theorem test_every_row_runs_first_after_reset :
    ∀ w ∈ [0x0, 0x1, 0x2, 0x3, 0x7], ∃ t, step (State.reset.withFetchWord 8 w) = .next t := by
  intro w hw
  simp only [List.mem_cons, List.not_mem_nil, or_false] at hw
  obtain rfl | rfl | rfl | rfl | rfl := hw <;> exact ⟨_, rfl⟩

/-- The trace of T5's INTENDED key: its first three elements. -/
theorem test_trace_head :
    (initTrace (.withDefaults .intended) 0x1223456789ABCDEF#64 0x134#22).take 3 =
      [⟨0, 0, 0⟩, ⟨0, 0, 1⟩, ⟨0, 1, 2⟩] := by decide +kernel

/-- R79: a comment and blanks round the operands. -/
theorem test_parse_init :
    parseLine ['I', 'N', 'I', 'T', ' ', '0', 'x', '1', 'F', ' ', ',', '0', 'x', '1', '3', '4', ' ', ';', 'c'] =
      .ok (some (.init [1, 15] [1, 3, 4])) := by decide

theorem test_parse_unknown : parseLine ['H', 'A', 'L', 'T'] = .error .unknownMnemonic := by decide

/-- R79: a SESSION with a wide key is refused, not truncated. -/
theorem test_assemble_wide_session :
    assembleLine (.session (List.replicate 17 1) [0]) = .error .keyTooWide := by decide

/-- R80: SESSION is INIT and GEN. A wide frame on line 2 is refused there. -/
theorem test_assemble_program :
    assembleFrom 1 [.session [1, 15] [1, 3, 4], .step] =
      .ok [⟨0x1#4, 0x1F#64, 0x134#22⟩, ⟨0x2#4, 0#64, 0#22⟩, ⟨0x3#4, 0#64, 0#22⟩] ∧
    assembleFrom 1 [.nop, .init [1] [4, 0, 0, 0, 0, 0]] = .error (2, .frameTooWide) := by decide

/-! ### Witnesses: concrete values that meet the hypotheses of each statement, clause by clause -/

/-- The default configuration in ARTIFACT mode. -/
def art : Config := .withDefaults .artifact

/-- The default configuration in INTENDED mode. -/
def intd : Config := .withDefaults .intended

/-- An edge with nothing offered. -/
def quiet : InPorts := { rst := false, cmdValid := false, offer := default }

/-- An offer of a bare command word. -/
def offerWord (w : CmdWord) : InPorts := .offering ⟨w, 0#64, 0#22⟩

/-- An INIT with key 1 just accepted by a keyed block (ARTIFACT). -/
def loadingState : State := acceptEdge (encode (.init 1#64 0#22)) (keyedWith .zero)

/-- A STEP.M just accepted. -/
def steppingState : State := acceptEdge (encode .stepM) (keyedWith ⟨0x12345#19, 0x123456#22, 0x234567#23⟩)

/-- A GEN in a cycle of one direction, with an output bit of 1. -/
def generatingState (ph : Phase) (cnt : BitVec 8) : State :=
  { acceptEdge (encode .gen) (keyedWith ⟨0x40000#19, 0#22, 0#23⟩) with phase := ph, cnt := cnt }

theorem witness_ParityIsPopcountModTwo : 19 ≤ 19 ∧ 19 ≤ 22 ∧ parity (0x7FFFF#19) = true := by decide

theorem witness_AdvanceShiftsInTapParity :
    (0 < 19 ∧ (advance 0x072000#19 0x40000#19).getLsbD 0 = true) ∧
    (18 < 19 ∧ (advance 0x072000#19 0x20000#19).getLsbD 18 = true) := by decide

theorem witness_InjectedAdvanceFlipsBitZero :
    (0 < 19 ∧ (advanceInj 0x072000#19 0x40000#19 true).getLsbD 0 = false) ∧
    (18 < 19 ∧ (advanceInj 0x072000#19 0x20000#19 true).getLsbD 18 = true) := by decide

/-- Rows 111, 110, 101 and 011 of T4: the premises of the four majority clauses. -/
theorem witness_StepAdvancesMajorityOrAll :
    ((0x12345#19).getLsbD art.clkbit1 = (0x123456#22).getLsbD art.clkbit2 ∧
      (0x12345#19).getLsbD art.clkbit1 = (0x234567#23).getLsbD art.clkbit3) ∧
    ((0x12345#19).getLsbD art.clkbit1 = (0x123456#22).getLsbD art.clkbit2 ∧
      (0x12345#19).getLsbD art.clkbit1 ≠ (0x234167#23).getLsbD art.clkbit3) ∧
    ((0x12345#19).getLsbD art.clkbit1 ≠ (0x123056#22).getLsbD art.clkbit2 ∧
      (0x12345#19).getLsbD art.clkbit1 = (0x234567#23).getLsbD art.clkbit3) ∧
    ((0x123456#22).getLsbD art.clkbit2 = (0x234567#23).getLsbD art.clkbit3 ∧
      (0x12245#19).getLsbD art.clkbit1 ≠ (0x123456#22).getLsbD art.clkbit2) := by decide

/-- Each rotation with the third register's control bit 0 and 1. -/
theorem witness_TwoZeroRegistersStick :
    ((0x1#19).getLsbD art.clkbit1 = false ∧ (0x100#19).getLsbD art.clkbit1 = true) ∧
    ((0x1#22).getLsbD art.clkbit2 = false ∧ (0x400#22).getLsbD art.clkbit2 = true) ∧
    ((0x1#23).getLsbD art.clkbit3 = false ∧ (0x400#23).getLsbD art.clkbit3 = true) ∧
    (CipherState.mk 0x1#19 0#22 0#23).r2 = 0#22 ∧ (CipherState.mk 0x1#19 0#22 0#23).r3 = 0#23 ∧
    (CipherState.mk 0#19 0x1#22 0#23).r1 = 0#19 := by decide

theorem witness_StepMStepsByMajority :
    (keyedWith .zero).keyed = true ∧ (keyedWith .zero).cipher = CipherState.zero := by decide

theorem witness_StepFAdvancesAllRegisters : (keyedWith .zero).cipher = CipherState.zero := by decide

theorem witness_ArtifactLoadKeepsLowKeyBits :
    (0x1#64).extractLsb' 0 23 = (0x8000000000800001#64).extractLsb' 0 23 ∧ (0x1#64) ≠ 0x8000000000800001#64 := by decide

theorem witness_ArtifactInitIgnoresFrame : art.loadMode = .artifact := rfl

/-- The first and last micro-steps, and the ones at which R1 and R2 stop. -/
theorem witness_IntendedLoadSplitsKey :
    ∀ i ∈ [0, 18, 19, 21, 22], i < 23 ∧
      (intendedKeyStep 0xFFFFFFFFFFFFFFFF#64 i .zero).r1 = (if i < 19 then 1#19 else 0#19) ∧
      (intendedKeyStep 0xFFFFFFFFFFFFFFFF#64 i .zero).r2 = (if i < 22 then 1#22 else 0#22) := by decide

theorem witness_IntendedInitIsLinear : intd.loadMode = .intended := rfl

theorem witness_FrameMixOfNonzeroFrameIsNonzero : 1#22 ≠ 0#22 ∧ 0x200000#22 ≠ 0#22 := by decide

theorem witness_FrameMixKeepsAllOnes :
    popcount intd.taps1 % 2 = 0 ∧ popcount intd.taps2 % 2 = 0 ∧ popcount intd.taps3 % 2 = 0 ∧ 0 < 22 ∧ 21 < 22 := by
  decide

theorem witness_InitLoadsCipherState : (0x0#64 : Key) = 0#64 ∧ (0x0#22 : Frame) = 0#22 := by decide

theorem witness_GenEmitsBothKeystreams : (keyedWith ⟨1#19, 1#22, 1#23⟩).keyed = true ∧ 0 < 114 ∧ 113 < 114 := by decide

theorem witness_GenFromZeroIsZero :
    (keyedWith .zero).keyed = true ∧ (keyedWith .zero).cipher = CipherState.zero := by decide

theorem witness_GenWithoutKeyIsRefused :
    State.reset.keyed = false ∧ exec .gen State.reset = .next refused ∧
    (∀ key frame, Instr.stepM ≠ .init key frame) ∧ ∃ t, exec .stepM State.reset = .next t :=
  ⟨rfl, rfl, by simp, _, rfl⟩

/-- Two keyed states with one CipherState, which differ elsewhere, and two configurations that differ in LOAD_MODE. -/
theorem witness_SessionDependsOnlyOnKeyAndFrame :
    (keyedWith .zero).keyed = true ∧ { keyedWith .zero with err := true, ksDl := 1#114 }.keyed = true ∧
    (keyedWith .zero).cipher = { keyedWith .zero with err := true, ksDl := 1#114 }.cipher ∧
    art.loadMode ≠ intd.loadMode ∧ (art.taps1 = intd.taps1 ∧ art.taps2 = intd.taps2 ∧ art.taps3 = intd.taps3) ∧
    (art.clkbit1 = intd.clkbit1 ∧ art.clkbit2 = intd.clkbit2 ∧ art.clkbit3 = intd.clkbit3) := by decide

/-- Nothing between, and a STEP.M, a GEN and two illegal words. -/
theorem witness_SecondGenKeepsFirstKeystream :
    (∀ p ∈ ([] : List Command), p.cmd ≠ 0x1#4) ∧
    ∀ p ∈ [encode .stepM, encode .gen, ⟨0x5#4, 1#64, 0#22⟩, ⟨0x9#4, 0#64, 1#22⟩], p.cmd ≠ 0x1#4 := by decide

theorem witness_ByteViewIsMsbFirst :
    (0 < 15 ∧ 0 < 8 ∧ 8 * 0 + 0 ≤ 113) ∧ (13 < 15 ∧ 7 < 8 ∧ 8 * 13 + 7 ≤ 113) ∧ (14 < 15 ∧ 1 < 8 ∧ 8 * 14 + 1 ≤ 113) ∧
    0 ≤ 5 ∧ 5 ≤ 5 := by decide

theorem witness_NopOnlyCompletes : refused.status = 0x2A#8 := by decide

theorem witness_DecodeEncodeAgree :
    Instr.init 1#64 0x134#22 = .init 1#64 0x134#22 ∧
    (1#64 : Key) = (Command.bits ⟨0x1#4, 1#64, 0x134#22⟩).extractLsb' 4 64 ∧
    (0x134#22 : Frame) = (Command.bits ⟨0x1#4, 1#64, 0x134#22⟩).extractLsb' 68 22 := by decide

/-- A STEP.F, which latches, and a GEN with KEYED = 0, which does not. -/
theorem witness_StepRunsTheDecodedCommand :
    let s := { State.reset with inputs := [offerWord 0x7#4, quiet] }
    s.inputs = [offerWord 0x7#4, quiet] ∧ (offerWord 0x7#4).rst = false ∧ s.busy = false ∧
    (offerWord 0x7#4).cmdValid = true ∧ decode (offerWord 0x7#4).offer = .ok .stepF ∧
    decode (offerWord 0x2#4).offer = .ok .gen ∧ s.keyed = false := by decide

/-- The least and the greatest illegal word. -/
theorem witness_IllegalWordOnlyReportsError :
    ∀ w ∈ [0x4#4, 0xF#4], (offerWord w).rst = false ∧ (offerWord w).cmdValid = true ∧
      { State.reset with inputs := [offerWord w] }.busy = false ∧
      (offerWord w).offer.cmd ∈ [0x4#4, 0x5#4, 0x6#4, 0x8#4, 0x9#4, 0xA#4, 0xB#4, 0xC#4, 0xD#4, 0xE#4, 0xF#4] := by decide

/-- An idle block with no input, an idle edge, a reset while INIT runs, and a reset entry that offers a command too. -/
theorem witness_StepIdlesOrResets :
    (refused.busy = false ∧ refused.inputs = []) ∧
    (quiet.rst = false ∧ quiet.cmdValid = false ∧ { refused with inputs := [quiet] }.busy = false) ∧
    (InPorts.resetting.rst = true ∧ { loadingState with inputs := [.resetting] }.busy = true) ∧
    ({ offerWord 0x2#4 with rst := true }.rst = true ∧ { offerWord 0x2#4 with rst := true }.cmdValid = true) := by decide

/-- The least and the greatest illegal word, and a refused GEN. -/
theorem witness_FailedCommandChangesOnlyErrorFlags :
    (∀ w ∈ [0x4#4, 0xF#4, 0x2#4], Accepts (offerWord w) State.reset) ∧ quiet.rst = false ∧
    State.reset.cnt = 0#8 ∧ State.reset.cmdL = 0#4 ∧ State.reset.keyed = false ∧ (offerWord 0x2#4).offer.cmd = 0x2#4 ∧
    ∀ w ∈ [0x4#4, 0xF#4], (offerWord w).offer.cmd ∈
      [0x4#4, 0x5#4, 0x6#4, 0x8#4, 0x9#4, 0xA#4, 0xB#4, 0xC#4, 0xD#4, 0xE#4, 0xF#4] :=
  ⟨fun _ _ => ⟨rfl, rfl, rfl⟩, by decide⟩

theorem witness_ProgramRunIsCommandsInOrder : refused.busy = false ∧ [encode .nop, encode .gen] ≠ [] := by decide

theorem witness_AssemblerRefusesWideLiterals :
    (0 ≤ 15 ∧ 15 ≤ 15 ∧ 15 < 16) ∧
    (1 ≤ [(15 : Fin 16)].length ∧ (List.replicate 16 (15 : Fin 16)).length ≤ 16 ∧
      16 < (List.replicate 17 (0 : Fin 16)).length) ∧
    ([(3 : Fin 16), 15, 15, 15, 15, 15].length ≤ 6 ∧ hexValue [3, 15, 15, 15, 15, 15] < 2 ^ 22 ∧
      2 ^ 22 ≤ hexValue [4, 0, 0, 0, 0, 0] ∧ 6 < (List.replicate 7 (0 : Fin 16)).length) := by decide

/-- Each mask and bit position at its first illegal value, and all of them at their last legal one. -/
theorem witness_ElaborationRefusesIllegalConfig :
    (2 ^ 19 ≤ { raw with taps1 := 0x80000 }.taps1 ∧ 2 ^ 22 ≤ { raw with taps2 := 0x400000 }.taps2 ∧
      2 ^ 23 ≤ { raw with taps3 := 0x800000 }.taps3) ∧
    (19 ≤ { raw with clkbit1 := 19 }.clkbit1 ∧ 22 ≤ { raw with clkbit2 := 22 }.clkbit2 ∧
      23 ≤ { raw with clkbit3 := 23 }.clkbit3) ∧
    (raw.taps1 < 2 ^ 19 ∧ raw.taps2 < 2 ^ 22 ∧ raw.taps3 < 2 ^ 23 ∧ raw.clkbit1 < 19 ∧ raw.clkbit2 < 22 ∧
      raw.clkbit3 < 23) := by decide

theorem witness_ErrIsStickyUntilReset :
    (refused.err = true ∧ quiet.rst = false ∧ InPorts.resetting.rst = true) ∧
    (∀ p rest, { refused with inputs := [offerWord 0x0#4] }.inputs = p :: rest → p.rst = false) ∧
    ∃ t, step { refused with inputs := [offerWord 0x0#4] } = .next t := by
  refine ⟨by decide, ?_, _, rfl⟩
  intro p rest h
  cases h
  rfl

theorem witness_CommandsLeaveHiddenStateIdle :
    (∃ key frame, Instr.init 1#64 0x134#22 = .init key frame) ∧ ∀ key frame, Instr.gen ≠ .init key frame :=
  ⟨⟨_, _, rfl⟩, by simp⟩

theorem witness_ResetEdgeResetsEverything :
    InPorts.resetting.rst = true ∧ ∀ q ∈ [InPorts.resetting, InPorts.resetting], q.rst = true := by decide

/-- The least and the greatest word that latches, a GEN with KEYED = 1 and one with KEYED = 0, and the least and the
greatest illegal word. -/
theorem witness_AcceptingEdgeSamplesPorts :
    (∀ w ∈ [0x0#4, 0x1#4, 0x7#4, 0x2#4, 0x4#4, 0xF#4], Accepts (offerWord w) refused) ∧
    Accepts (offerWord 0x2#4) (keyedWith .zero) ∧ (keyedWith .zero).keyed = true ∧ refused.keyed = false ∧
    (∀ w ∈ [0x0#4, 0x1#4, 0x7#4], (offerWord w).offer.cmd ∈ [0x0#4, 0x1#4, 0x3#4, 0x7#4]) ∧
    (∀ w ∈ [0x4#4, 0xF#4], (offerWord w).offer.cmd ∈
      [0x4#4, 0x5#4, 0x6#4, 0x8#4, 0x9#4, 0xA#4, 0xB#4, 0xC#4, 0xD#4, 0xE#4, 0xF#4]) ∧
    (offerWord 0x1#4).offer.cmd = 0x1#4 ∧ (offerWord 0x2#4).offer.cmd ≠ 0x1#4 :=
  ⟨fun _ _ => ⟨rfl, rfl, rfl⟩, ⟨rfl, rfl, rfl⟩, by decide⟩

theorem witness_BusyBlockIgnoresPorts :
    loadingState.busy = true ∧ (offerWord 0x2#4).rst = quiet.rst ∧
    [quiet, quiet].length = [offerWord 0x2#4, offerWord 0xF#4].length ∧
    (∀ p ∈ [quiet, quiet], p.rst = false) ∧ (∀ q ∈ [offerWord 0x2#4, offerWord 0xF#4], q.rst = false) ∧
    (∀ n, n < 2 → (runEdges art ([quiet, quiet].take n) loadingState).busy = true) := by decide

/-- INIT's last edge, GEN's last edge, an INIT accepted by a keyed block, and a GEN accepted into its work. -/
theorem witness_KeyedChangesOnlyByInitGenReset :
    ({ loadingState with cnt := 63#8 }.keyed = false ∧ { loadingState with cnt := 63#8 }.loading ∧
      (clockEdge art quiet { loadingState with cnt := 63#8 }).keyed = true ∧
      (clockEdge art quiet { loadingState with cnt := 63#8 }).busy = false) ∧
    ((generatingState .genUl 113#8).keyed = true ∧ (generatingState .genUl 113#8).phase = .genUl ∧
      (clockEdge art quiet (generatingState .genUl 113#8)).keyed = false ∧
      (clockEdge art quiet (generatingState .genUl 113#8)).busy = false) ∧
    (Accepts (offerWord 0x1#4) (keyedWith .zero) ∧ (offerWord 0x1#4).offer.cmd = 0x1#4) ∧
    (Accepts (offerWord 0x2#4) (keyedWith .zero) ∧
      (clockEdge art (offerWord 0x2#4) (keyedWith .zero)).generating) ∧
    InPorts.resetting.rst = true :=
  ⟨⟨rfl, .inl rfl, by decide, by decide⟩, ⟨rfl, rfl, by decide, by decide⟩, ⟨⟨rfl, rfl, rfl⟩, rfl⟩,
    ⟨⟨rfl, rfl, rfl⟩, .inl rfl⟩, rfl⟩

theorem witness_OnlyListedWritersChangeRegisters :
    (clockEdge art quiet steppingState).cipher ≠ steppingState.cipher ∧
    (clockEdge art quiet (generatingState .genDl 0#8)).ksDl ≠ (generatingState .genDl 0#8).ksDl ∧
    (clockEdge art quiet (generatingState .genUl 113#8)).ksUl ≠ (generatingState .genUl 113#8).ksUl ∧
    ((clockEdge art (offerWord 0x7#4) refused).phase = .step ∧ (clockEdge art (offerWord 0x6#4) refused).phase = .unit ∧
      (clockEdge art (offerWord 0x2#4) refused).phase = .unit) ∧
    (Accepts (offerWord 0x7#4) refused ∧ Accepts (offerWord 0x6#4) refused ∧ Accepts (offerWord 0x2#4) refused) ∧
    (acceptEdge (encode .nop) refused).phase = .unit ∧ quiet.rst = false :=
  ⟨by decide, by decide, by decide, by decide, ⟨⟨rfl, rfl, rfl⟩, ⟨rfl, rfl, rfl⟩, rfl, rfl, rfl⟩, by decide, rfl⟩

/-- DONE falling at an acceptance, rising at a completion, and ERRCODE changing there. -/
theorem witness_DoneIsALevel :
    (refused.done = true ∧ (clockEdge art (offerWord 0x0#4) refused).done = false ∧
      Accepts (offerWord 0x0#4) refused) ∧
    (steppingState.done = false ∧ steppingState.busy = true ∧ (clockEdge art quiet steppingState).done = true ∧
      (clockEdge art quiet steppingState).busy = false) ∧
    (clockEdge art quiet (acceptEdge (encode .nop) refused)).errcode ≠ (acceptEdge (encode .nop) refused).errcode :=
  ⟨⟨rfl, by decide, rfl, rfl, rfl⟩, by decide, by decide⟩

/-- STEP.M: its one edge, and the accepting edge before it; INIT in ARTIFACT mode: its first, 63rd and last edges. -/
theorem witness_SnapshotsShowTheTrace :
    (Accepts (offerWord 0x3#4) refused ∧ [quiet].length = 0 + 1 ∧
      0 < (trace art (offerWord 0x3#4).offer refused).length ∧
      [quiet].length = max (trace art (offerWord 0x3#4).offer refused).length 1) ∧
    ([] : List InPorts).length < max (trace art (offerWord 0x3#4).offer refused).length 1 ∧
    (List.replicate 1 quiet).length = 0 + 1 ∧ 0 < (trace art (offerWord 0x1#4).offer refused).length ∧
    63 < (trace art (offerWord 0x1#4).offer refused).length ∧
    (List.replicate 63 quiet).length < max (trace art (offerWord 0x1#4).offer refused).length 1 ∧
    (List.replicate 64 quiet).length = max (trace art (offerWord 0x1#4).offer refused).length 1 ∧
    ∀ q ∈ List.replicate 64 quiet, q.rst = false := by
  refine ⟨⟨⟨rfl, rfl, rfl⟩, rfl, by decide, by decide⟩, by decide, rfl, by decide, by decide, by decide, by decide, ?_⟩
  intro q hq
  rw [List.eq_of_mem_replicate hq]
  rfl

theorem witness_TransactionIsItsClockEdges :
    Accepts (offerWord 0x1#4) refused ∧ (∀ q ∈ List.replicate 145 quiet, q.rst = false) ∧
    (List.replicate 145 quiet).length = commandCycles intd (offerWord 0x1#4).offer.cmd refused.keyed ∧
    Accepts (offerWord 0x0#4) refused := by
  refine ⟨⟨rfl, rfl, rfl⟩, ?_, rfl, rfl, rfl, rfl⟩
  intro q hq
  rw [List.eq_of_mem_replicate hq]
  rfl

/-- A running INIT. -/
theorem witness_ClockEdgeKeepsConsistency : Inv art loadingState ∧ loadingState.busy = true := by
  refine ⟨?_, rfl⟩
  constructor <;>
    simp [loadingState, acceptEdge, encode, decodeWord, firstPhase, keyedWith, State.loading, State.generating,
      State.beginInit, State.sample, commandCode, State.enter, State.busy, phaseCount, keyloadCount, art, Config.withDefaults,
      State.reset, reservedField, forceField, opField]

/-- An idle block that is offered a NOP. -/
theorem witness_StepKeepsConsistency :
    Inv Config.build { refused with inputs := [offerWord 0x0#4] } ∧
    ∃ t, step { refused with inputs := [offerWord 0x0#4] } = .next t := by
  refine ⟨?_, _, rfl⟩
  constructor <;> simp [refused, State.reset, State.busy, State.loading, State.generating]

end Sys2Proof.Tests
end

