-- ==== Sys2Proof/Proofs/Elaboration.lean ====
section
/-! Elaboration of a configuration (00_scope R11): what it refuses, what it gives, and the obligation about both. -/

namespace Sys2Proof.Machine

/-- R11: elaboration refuses exactly the ill-formed configurations. -/
@[simp] theorem elaborate_eq_none_iff {r : RawConfig} : elaborate r = none ↔ ¬ r.WellFormed := by
  simp only [elaborate, dite_eq_right_iff, reduceCtorEq, imp_false]

/-- A well-formed configuration is elaborated to the one with the same values: its masks keep theirs because each is
below 2 to the width of its register. -/
theorem elaborate_of_wellFormed {r : RawConfig} (h : r.WellFormed) :
    ∃ c, elaborate r = some c ∧ c.taps1.toNat = r.taps1 ∧ c.taps2.toNat = r.taps2 ∧ c.taps3.toNat = r.taps3 ∧
      c.clkbit1.val = r.clkbit1 ∧ c.clkbit2.val = r.clkbit2 ∧ c.clkbit3.val = r.clkbit3 ∧ c.loadMode = r.loadMode := by
  have ⟨⟨htaps1, htaps2, htaps3⟩, _⟩ := h
  exact ⟨_, dif_pos h, Nat.mod_eq_of_lt htaps1, Nat.mod_eq_of_lt htaps2, Nat.mod_eq_of_lt htaps3, rfl, rfl, rfl, rfl⟩

/-- Settles O35: an illegal value makes the configuration ill-formed, and the six bounds together are its
well-formedness. -/
theorem elaborationRefusesIllegalConfig : Obligations.ElaborationRefusesIllegalConfig := by
  intro r
  refine ⟨fun hout => elaborate_eq_none_iff.mpr ?_, fun ht1 ht2 ht3 hc1 hc2 hc3 => ?_⟩
  · rintro ⟨⟨ht1, ht2, ht3⟩, hc1, hc2, hc3⟩
    omega
  · exact elaborate_of_wellFormed ⟨⟨ht1, ht2, ht3⟩, hc1, hc2, hc3⟩

end Sys2Proof.Machine
end

