-- ==== Sys2Proof/Proofs/Consistency.lean ====
section
/-! The invariant `Inv` along clock edges and steps (O47, O48, O49). -/

namespace Sys2Proof.Machine

/-- Neither buffer holds a keystream bit. -/
def State.BuffersZero (s : State) : Prop := s.ksDl = 0#114 ∧ s.ksUl = 0#114

/-- What `Inv` asks of a state in the given phase, beside the clauses that every running phase shares
(`inv_iff_phaseInv`). -/
def PhaseInv (c : Config) (s : State) : Phase → Prop
  | .idle => s.cnt = 0#8 ∧ s.cmdL = 0#4 ∧ (s.keyed = true → s.BuffersZero)
  | .keyload => s.keyed = false ∧ s.BuffersZero ∧ decodeWord s.cmdL = .ok .init
  | .frame | .discard =>
    s.keyed = false ∧ s.BuffersZero ∧ decodeWord s.cmdL = .ok .init ∧ c.loadMode = .intended
  | .genDl =>
    s.keyed = true ∧ (∀ i, s.cnt.toNat ≤ i → s.ksDl.getLsbD i = false) ∧ s.ksUl = 0#114 ∧
      decodeWord s.cmdL = .ok .gen
  | .genUl =>
    s.keyed = true ∧ (∀ i, s.cnt.toNat ≤ i → s.ksUl.getLsbD i = false) ∧ decodeWord s.cmdL = .ok .gen
  | .step => (s.keyed = true → s.BuffersZero) ∧ decodeWord s.cmdL = .ok (.step (forceField s.cmdL))
  | .unit =>
    (s.keyed = true → s.BuffersZero) ∧
      ((∃ e, decodeWord s.cmdL = .error e) ∨ decodeWord s.cmdL = .ok .nop ∨
        (decodeWord s.cmdL = .ok .gen ∧ s.keyed = false))

theorem Inv.phaseInv {c : Config} {s : State} (h : Inv c s) : PhaseInv c s s.phase := by
  obtain ⟨hcnt, hcmd, -, -, -, hclean, hkeyed, hzero, hdl, hul, hint, hinit, hgen, hstep, hunit⟩ := h
  cases hp : s.phase <;>
    simp_all [PhaseInv, State.BuffersZero, State.loading, State.generating]

theorem inv_iff_phaseInv (c : Config) (s : State) :
    Inv c s ↔ (s.errcode ≠ .none → s.err = true) ∧
      (s.busy = true → s.cnt.toNat < phaseCount c s.phase ∧ s.done = false) ∧ PhaseInv c s s.phase := by
  refine ⟨fun h => ⟨h.errcodeSetsErr, fun hb => ⟨h.cntInRange hb, h.doneWhileBusy hb⟩, h.phaseInv⟩, ?_⟩
  rintro ⟨herr, hbusy, hphase⟩
  cases hp : s.phase <;> rw [hp] at hphase <;> constructor <;>
    simp_all [PhaseInv, State.BuffersZero, State.loading, State.generating, State.busy]

/-! ### A state that enters IDLE -/

/-- Completion gives a consistent state when no keystream bit of an unconsumed CipherState is left. -/
theorem inv_complete (c : Config) (s : State) (code : ErrCode) (h : s.keyed = true → s.BuffersZero) :
    Inv c (s.complete code) := by
  rw [inv_iff_phaseInv]
  exact ⟨by cases code <;> simp, by simp, rfl, rfl, h⟩

/-- INIT's completion gives a consistent state when the buffers are as INIT cleared them (R153). -/
theorem inv_finishInit (c : Config) (s : State) (h : s.BuffersZero) : Inv c s.finishInit := by
  rw [inv_iff_phaseInv]
  exact ⟨by simp, by simp, rfl, rfl, fun _ => h⟩

/-- GEN's completion consumes the CipherState, so whatever the buffers hold is consistent (R31). -/
theorem inv_finishGen (c : Config) (s : State) : Inv c s.finishGen := by
  rw [inv_iff_phaseInv]
  exact ⟨by simp, by simp, rfl, rfl, by simp⟩

theorem inv_resetBlock (c : Config) (s : State) : Inv c s.resetBlock := by
  rw [inv_iff_phaseInv]
  exact ⟨by simp, by simp, rfl, rfl, by simp⟩

/-- The invariant does not look at what the host drives. -/
theorem Inv.with_inputs {c : Config} {s : State} (h : Inv c s) (inputs : List InPorts) :
    Inv c { s with inputs := inputs } := by
  rw [inv_iff_phaseInv] at h ⊢
  exact h

/-- Settles O47: the reset state is what a reset makes of any state, itself included. -/
theorem resetStateIsConsistent : Obligations.ResetStateIsConsistent :=
  fun c => inv_resetBlock c State.reset

/-! ### What a micro-step does to the buffers and CNT -/

theorem microStep_ksDl (c : Config) (s : State) :
    (s.microStep c).ksDl = if s.phase = .genDl then setBit s.ksDl s.cnt.toNat (outbit s.cipher) else s.ksDl := by
  unfold State.microStep
  cases s.phase <;> rfl

theorem microStep_ksUl (c : Config) (s : State) :
    (s.microStep c).ksUl = if s.phase = .genUl then setBit s.ksUl s.cnt.toNat (outbit s.cipher) else s.ksUl := by
  unfold State.microStep
  cases s.phase <;> rfl

/-- A write at bit n of a word with no bit set from n on leaves none set from n + 1 on. -/
theorem getLsbD_setBit_of_le {w n : Nat} {v : BitVec w} (h : ∀ i, n ≤ i → v.getLsbD i = false) (b : Bool) (i : Nat)
    (hi : n + 1 ≤ i) : (setBit v n b).getLsbD i = false := by
  rw [getLsbD_setBit, if_neg (by omega), h i (by omega)]

/-- CNT does not wrap within a phase: no phase has more than 114 edges (R262). -/
theorem toNat_cnt_add_one {c : Config} {s : State} (h : s.cnt.toNat + 1 < phaseCount c s.phase) :
    (s.cnt + 1#8).toNat = s.cnt.toNat + 1 := by
  have : phaseCount c s.phase ≤ 114 := by
    cases s.phase <;> cases hm : c.loadMode <;> simp [phaseCount, keyloadCount, hm]
  rw [BitVec.toNat_add_of_lt]
  · rfl
  · simp only [BitVec.toNat_ofNat]; omega

/-! ### One clock edge -/

/-- An edge inside a phase keeps the invariant: GEN's phases set bit CNT and CNT moves past it. -/
theorem inv_countOn {c : Config} {s : State} (h : Inv c s) (hlt : s.cnt.toNat + 1 < phaseCount c s.phase) :
    Inv c { s.microStep c with cnt := s.cnt + 1#8 } := by
  have hcnt := toNat_cnt_add_one hlt
  rw [inv_iff_phaseInv] at h ⊢
  obtain ⟨herr, hbusy, hphase⟩ := h
  refine ⟨by simpa using herr, fun hb => ?_, ?_⟩
  · have hb' : s.busy = true := by simpa [State.busy] using hb
    simpa [hcnt, hlt] using (hbusy hb').2
  · cases hp : s.phase <;> rw [hp] at hphase hlt
    case idle | step | unit => exact absurd hlt (by simp [phaseCount])
    case genDl =>
      obtain ⟨hk, hbits, hul, hcmd⟩ := hphase
      simpa [PhaseInv, hp, hcnt, microStep_ksDl, microStep_ksUl, hk, hul, hcmd] using getLsbD_setBit_of_le hbits _
    case genUl =>
      obtain ⟨hk, hbits, hcmd⟩ := hphase
      simpa [PhaseInv, hp, hcnt, microStep_ksUl, hk, hcmd] using getLsbD_setBit_of_le hbits _
    case keyload | frame | discard =>
      simpa [PhaseInv, State.BuffersZero, hp, microStep_ksDl, microStep_ksUl] using hphase

/-- Entering a running phase with CNT = 0 gives a consistent state when that phase's own facts hold. -/
theorem inv_enter {c : Config} {s : State} {ph : Phase} (hph : ph ≠ .idle) (herr : s.errcode ≠ .none → s.err = true)
    (hdone : s.done = false) (hphase : PhaseInv c (s.enter ph) ph) : Inv c (s.enter ph) := by
  have hpos : 0 < phaseCount c ph := by
    cases ph <;> cases hm : c.loadMode <;> simp [phaseCount, keyloadCount, hm] at hph ⊢
  rw [inv_iff_phaseInv]
  exact ⟨herr, fun _ => ⟨hpos, hdone⟩, hphase⟩

/-- The micro-steps of INIT, STEP and UNIT write no buffer. -/
theorem buffersZero_microStep {c : Config} {s : State} (hg : ¬ s.generating) (h : s.BuffersZero) :
    (s.microStep c).BuffersZero := by
  rw [State.generating, not_or] at hg
  simpa [State.BuffersZero, microStep_ksDl, microStep_ksUl, hg] using h

theorem State.loading.not_generating {s : State} (h : s.loading) : ¬ s.generating := by
  rcases h with h | h | h <;> simp [State.generating, h]

/-- The later phases of INTENDED mode's INIT, FRAME and DISCARD, are entered with the buffers and KEYED still clear. -/
theorem Inv.enter_loading {c : Config} {s : State} (h : Inv c s) (hl : s.loading) (hm : c.loadMode = .intended)
    {ph : Phase} (hph : ph = .frame ∨ ph = .discard) : Inv c ((s.microStep c).enter ph) := by
  have hb : s.busy = true := by rcases hl with hl | hl | hl <;> simp [State.busy, hl]
  obtain ⟨hkeyed, hzero⟩ := h.loadingClean hl
  have hnext : (s.microStep c).keyed = false ∧ (s.microStep c).BuffersZero ∧
      decodeWord (s.microStep c).cmdL = .ok .init ∧ c.loadMode = .intended :=
    ⟨by simpa using hkeyed, buffersZero_microStep hl.not_generating hzero, by simpa using h.loadingCommand hl, hm⟩
  refine inv_enter (by rcases hph with rfl | rfl <;> decide) (by simpa using h.errcodeSetsErr)
    (by simpa using h.doneWhileBusy hb) ?_
  rcases hph with rfl | rfl <;> exact hnext

/-- A STEP, NOP, illegal word or refused GEN completes with the buffers it found, whatever code it ends with. -/
theorem Inv.complete_microStep {c : Config} {s : State} (h : Inv c s) (hg : ¬ s.generating) (code : ErrCode) :
    Inv c ((s.microStep c).complete code) :=
  inv_complete c _ code fun hk => buffersZero_microStep hg (h.unconsumedBuffersZero (by simpa using hk) hg)

/-- An edge of a running command keeps the invariant. -/
theorem inv_busyEdge {c : Config} {s : State} (h : Inv c s) (hb : s.busy = true) : Inv c (busyEdge c s) := by
  obtain ⟨hlt, e⟩ | ⟨-, hend⟩ := busyEdge_inv c s hb
  · rw [e]; exact inv_countOn h hlt
  rcases hend with ⟨hp, hm, e⟩ | ⟨hp, e⟩ | ⟨hp, e⟩ | ⟨hp, e⟩ | ⟨-, e⟩ | ⟨hp, e⟩ | ⟨hp, e⟩ <;> rw [e]
  · exact h.enter_loading (.inl hp) hm (.inl rfl)
  · exact h.enter_loading (.inr (.inl hp)) (h.intendedPhases (.inl hp)) (.inr rfl)
  · have hul : s.ksUl = 0#114 := (h.downlinkSoFar hp).2
    have hkeyed := h.generatingKeyed (.inl hp)
    have hcmd := h.generatingCommand (.inl hp)
    exact inv_enter (by decide) (by simpa using h.errcodeSetsErr) (by simpa using h.doneWhileBusy hb)
      (by simp [PhaseInv, microStep_ksUl, hp, hul, hkeyed, hcmd])
  · have hl : s.loading := hp.imp And.left .inr
    exact inv_finishInit c _ (buffersZero_microStep hl.not_generating (h.loadingClean hl).2)
  · exact inv_finishGen c _
  · exact h.complete_microStep (by simp [State.generating, hp]) _
  · exact h.complete_microStep (by simp [State.generating, hp]) _

/-- The forceAll that the decoder gives a STEP is the word's bit F (R72). -/
theorem decodeWord_step_force (w : CmdWord) (b : Bool) : decodeWord w = .ok (.step b) → b = forceField w :=
  forall_cmdWord (fun w => decodeWord w = .ok (.step b) → b = forceField w) (by revert b; decide) w

/-- An idle block holds no keystream of an unconsumed CipherState. -/
theorem Inv.idle_buffersZero {c : Config} {s : State} (h : Inv c s) (hb : s.busy = false) (hk : s.keyed = true) :
    s.BuffersZero :=
  h.unconsumedBuffersZero hk (by simp [State.generating, s.busy_eq_false_iff.1 hb])

/-- The first phase of an accepted command finds what `Inv` asks of it, verdict by verdict (R76, R262). -/
theorem phaseInv_acceptEdge {c : Config} {s : State} (hzero : s.keyed = true → s.BuffersZero) (p : Command) :
    PhaseInv c (acceptEdge p s) (firstPhase p.cmd s.keyed) := by
  rw [acceptEdge_eq]
  cases hd : decodeWord p.cmd with
  | error e => simpa [firstPhase, PhaseInv, State.BuffersZero, hd] using hzero
  | ok o =>
    cases o with
    | nop => simpa [firstPhase, PhaseInv, State.BuffersZero, hd] using hzero
    | init => simp [firstPhase, PhaseInv, State.BuffersZero, hd]
    | gen =>
      cases hk : s.keyed with
      | false => simp [firstPhase, PhaseInv, hd, hk]
      | true =>
        obtain ⟨hdl, hul⟩ := hzero hk
        simp [firstPhase, PhaseInv, hd, hk, hdl, hul]
    | step b =>
      obtain rfl := decodeWord_step_force p.cmd b hd
      simpa [firstPhase, PhaseInv, State.BuffersZero, hd] using hzero

/-- An accepting edge keeps the invariant. -/
theorem inv_acceptEdge {c : Config} {s : State} (h : Inv c s) (hb : s.busy = false) (p : Command) :
    Inv c (acceptEdge p s) := by
  have hphase := phaseInv_acceptEdge (c := c) (h.idle_buffersZero hb) p
  have herr : (acceptEdge p s).errcode ≠ .none → (acceptEdge p s).err = true := by
    rw [acceptEdge_eq]; split <;> exact h.errcodeSetsErr
  exact inv_enter (s := acceptEdge p s) (firstPhase_ne_idle p.cmd s.keyed) herr rfl hphase

/-- Settles O48: each of the four things an edge does keeps the invariant. -/
theorem clockEdgeKeepsConsistency : Obligations.ClockEdgeKeepsConsistency := by
  intro c p s h
  obtain ⟨-, e⟩ | ⟨-, hb, e⟩ | ⟨⟨-, -, hb⟩, e⟩ | ⟨-, -, -, e⟩ := clockEdge_cases c p s <;> rw [e]
  · exact inv_resetBlock c s
  · exact inv_busyEdge h hb
  · exact inv_acceptEdge h hb p.offer
  · exact h

/-! ### One step -/

/-- An accepted command, run whole by an idle block, keeps the invariant. -/
theorem inv_transact {c : Config} {s t : State} (h : Inv c s) (hb : s.busy = false) (p : Command)
    (ht : transact p s = .next t) : Inv c t := by
  have hzero : (s.sample p).keyed = true → (s.sample p).BuffersZero := h.idle_buffersZero hb
  cases hd : decode p with
  | error e =>
    rw [transact_error p s e hd] at ht
    cases ht; exact inv_complete c _ _ hzero
  | ok i =>
    rw [transact_ok p s i hd] at ht
    cases i with
    | init => cases ht; exact inv_finishInit c _ ⟨rfl, rfl⟩
    | gen =>
      cases ht
      unfold runGen
      split
      · exact inv_finishGen c _
      · exact inv_complete c _ _ hzero
    | nop | stepM | stepF => cases ht; exact inv_complete c _ _ hzero

/-- Settles O49: a step resets, finishes a running command edge by edge, runs a command whole, or idles. -/
theorem stepKeepsConsistency : Obligations.StepKeepsConsistency := by
  intro s t h ht
  have hrun : Inv Config.build (finishRunning Config.build s) :=
    finishRunning_keeps (Inv Config.build) Config.build (fun _ hb hx => inv_busyEdge hx hb) s h
  obtain ⟨-, e⟩ | ⟨p, rest, -, ⟨-, e⟩ | ⟨-, -, e⟩ | ⟨-, hb, -, e⟩ | ⟨-, -, -, e⟩⟩ := step_cases s <;> rw [e] at ht
  · cases ht
    split
    · exact hrun
    · exact h
  · cases ht; exact inv_resetBlock _ _
  · cases ht; exact hrun
  · exact inv_transact (h.with_inputs rest) hb p.offer ht
  · cases ht; exact h.with_inputs rest

end Sys2Proof.Machine
end

