-- ==== Sys2Proof/Proofs/IdleAnswer.lean ====
section
/-! The answer of every step is an idle state (O31). -/

namespace Sys2Proof.Machine

/-- Edges the phases after this one still take (R262). -/
def edgesAfterPhase (c : Config) : Phase → Nat
  | .keyload =>
    match c.loadMode with
    | .artifact => 0
    | .intended => 122
  | .frame => 100
  | .genDl => 114
  | .idle | .discard | .genUl | .step | .unit => 0

/-- Edges to the completion of the running command: those left of its phase, at least one, and those of the phases that
follow. -/
def State.edgesLeft (c : Config) (s : State) : Nat :=
  if s.busy then max (phaseCount c s.phase - s.cnt.toNat) 1 + edgesAfterPhase c s.phase else 0

theorem edgesLeft_of_idle {c : Config} {s : State} (h : s.busy = false) : s.edgesLeft c = 0 := by
  simp [State.edgesLeft, h]

theorem edgesLeft_of_busy {c : Config} {s : State} (h : s.busy = true) :
    s.edgesLeft c = max (phaseCount c s.phase - s.cnt.toNat) 1 + edgesAfterPhase c s.phase := by
  simp [State.edgesLeft, h]

/-- No command takes more than GEN's 228 edges (R262). -/
theorem edgesLeft_le (c : Config) (s : State) : s.edgesLeft c ≤ 228 := by
  unfold State.edgesLeft
  cases s.phase <;> cases hm : c.loadMode <;> simp [phaseCount, keyloadCount, edgesAfterPhase, hm] <;> split <;> omega

/-- Every edge of a running command brings its completion nearer. -/
theorem edgesLeft_busyEdge_lt {c : Config} {s : State} (hb : s.busy = true) :
    (busyEdge c s).edgesLeft c < s.edgesLeft c := by
  rw [edgesLeft_of_busy hb]
  obtain ⟨hlt, e⟩ | ⟨-, hend⟩ := busyEdge_inv c s hb
  · have hb' : (busyEdge c s).busy = true := by simpa [e, State.busy] using hb
    rw [edgesLeft_of_busy hb', e]
    simp only [microStep_phase, toNat_cnt_add_one hlt]
    omega
  rcases hend with ⟨hp, hm, e⟩ | ⟨hp, e⟩ | ⟨hp, e⟩ | ⟨-, e⟩ | ⟨-, e⟩ | ⟨-, e⟩ | ⟨-, e⟩ <;> rw [e]
  · simp [hp, hm, State.edgesLeft, phaseCount, edgesAfterPhase]
  · simp [hp, State.edgesLeft, phaseCount, edgesAfterPhase]
  · simp [hp, State.edgesLeft, phaseCount, edgesAfterPhase]
  all_goals rw [edgesLeft_of_idle rfl]; omega

/-- 228 edges finish every running command. -/
theorem busy_finishRunning (c : Config) (s : State) : (finishRunning c s).busy = false := by
  have hleft : (finishRunning c s).edgesLeft c + 228 ≤ 228 := by
    unfold finishRunning
    refine iter_keeps (fun n x => State.edgesLeft c x + n ≤ 228) _ 228 0 s (fun n x _ _ hx => ?_) (edgesLeft_le c s)
    split
    next hb => have := edgesLeft_busyEdge_lt (c := c) hb; omega
    next hb => rw [edgesLeft_of_idle (by simpa using hb)]; omega
  by_contra hb
  rw [edgesLeft_of_busy (by simpa using hb)] at hleft
  omega

/-- An accepted command, run whole, answers an idle state. -/
theorem transact_answers_idle (p : Command) (s : State) : ∃ t, transact p s = .next t ∧ t.busy = false := by
  cases hd : decode p with
  | error e => exact ⟨_, transact_error p s e hd, rfl⟩
  | ok i =>
    rw [transact_ok p s i hd]
    cases i
    case gen => exact ⟨_, rfl, by unfold runGen; split <;> rfl⟩
    all_goals exact ⟨_, rfl, rfl⟩

/-- Settles O31: a running command is finished within 228 edges, and every other step answers an idle state at once. -/
theorem everyStepAnswersAnIdleState : Obligations.EveryStepAnswersAnIdleState := by
  intro s
  obtain ⟨-, e⟩ | ⟨p, rest, -, ⟨-, e⟩ | ⟨-, -, e⟩ | ⟨-, -, -, e⟩ | ⟨-, hb, -, e⟩⟩ := step_cases s <;> rw [e]
  · refine ⟨_, rfl, ?_⟩
    split
    · exact busy_finishRunning _ s
    next hb => simpa using hb
  · exact ⟨_, rfl, rfl⟩
  · exact ⟨_, rfl, busy_finishRunning _ s⟩
  · exact transact_answers_idle _ _
  · exact ⟨_, rfl, hb⟩

end Sys2Proof.Machine
end

