-- ==== Sys2Proof/Proofs/StateWriters.lean ====
section
/-! Who writes KEYED, the registers and the buffers, at every clock edge (O41, O42), and the fields of STATUS (O23). -/

namespace Sys2Proof.Machine

/-! ### STATUS -/

/-- Each field of R28 read off the STATUS word. -/
theorem status_fields (s : State) :
    s.status.getLsbD 0 = s.busy ∧ s.status.getLsbD 1 = s.done ∧ s.status.getLsbD 2 = s.keyed ∧
      s.status.getLsbD 3 = s.err ∧ s.status.extractLsb' 4 2 = s.errcode.bits ∧ s.status.extractLsb' 6 2 = 0#2 := by
  unfold State.status
  generalize s.busy = busy, s.done = done, s.keyed = keyed, s.err = err, s.errcode.bits = code
  revert busy done keyed err code
  decide

/-- Settles O23: the STATUS port is the STATUS word, BUSY is the view of PHASE, and CMD_READY its negation. -/
theorem statusWordFields : Obligations.StatusWordFields := by
  intro s
  obtain ⟨hbusy, hdone, hkeyed, herr, hcode, hrsv⟩ := status_fields s
  have hport : s.outputs.status = s.status := rfl
  rw [hport, hbusy, State.busy_eq_true_iff]
  exact ⟨Iff.rfl, hdone, hkeyed, herr, by rw [hcode]; rfl, hrsv, rfl, rfl⟩

/-! ### The accepting edge, field by field -/

@[simp] theorem acceptEdge_phase (p : Command) (s : State) : (acceptEdge p s).phase = firstPhase p.cmd s.keyed := rfl

@[simp] theorem acceptEdge_busy (p : Command) (s : State) : (acceptEdge p s).busy = true := by
  simp [State.busy_eq_true_iff, firstPhase_ne_idle]

@[simp] theorem acceptEdge_cipher (p : Command) (s : State) :
    (acceptEdge p s).cipher = if p.cmd = 0x1#4 then CipherState.zero else s.cipher := by
  simp only [acceptEdge_eq, decodeWord_init_iff]; split <;> rfl

@[simp] theorem acceptEdge_ksDl (p : Command) (s : State) :
    (acceptEdge p s).ksDl = if p.cmd = 0x1#4 then 0#114 else s.ksDl := by
  simp only [acceptEdge_eq, decodeWord_init_iff]; split <;> rfl

@[simp] theorem acceptEdge_ksUl (p : Command) (s : State) :
    (acceptEdge p s).ksUl = if p.cmd = 0x1#4 then 0#114 else s.ksUl := by
  simp only [acceptEdge_eq, decodeWord_init_iff]; split <;> rfl

@[simp] theorem acceptEdge_keyed (p : Command) (s : State) :
    (acceptEdge p s).keyed = if p.cmd = 0x1#4 then false else s.keyed := by
  simp only [acceptEdge_eq, decodeWord_init_iff]; split <;> rfl

/-- Of the words accepted, INIT's alone enters INIT's phases (R262). -/
theorem acceptEdge_loading_iff (p : Command) (s : State) : (acceptEdge p s).loading ↔ p.cmd = 0x1#4 :=
  forall_cmdWord
    (fun w => firstPhase w s.keyed = .keyload ∨ firstPhase w s.keyed = .frame ∨ firstPhase w s.keyed = .discard ↔
      w = 0x1#4)
    (by generalize s.keyed = k; revert k; decide) p.cmd

/-- Only GEN's word enters GEN's phases, and only when KEYED = 1 (R31, R223). -/
theorem acceptEdge_generating_iff (p : Command) (s : State) :
    (acceptEdge p s).generating ↔ p.cmd = 0x2#4 ∧ s.keyed = true :=
  forall_cmdWord
    (fun w => firstPhase w s.keyed = .genDl ∨ firstPhase w s.keyed = .genUl ↔ w = 0x2#4 ∧ s.keyed = true)
    (by generalize s.keyed = k; revert k; decide) p.cmd

theorem firstPhase_step_iff (w : CmdWord) (keyed : Bool) : firstPhase w keyed = .step ↔ w = 0x3#4 ∨ w = 0x7#4 :=
  forall_cmdWord (fun w => firstPhase w keyed = .step ↔ w = 0x3#4 ∨ w = 0x7#4) (by revert keyed; decide) w

/-- PHASE UNIT is entered by NOP, by a refused GEN and by the eleven illegal words. -/
theorem firstPhase_unit_iff (w : CmdWord) (keyed : Bool) :
    firstPhase w keyed = .unit ↔ w = 0x0#4 ∨ (w = 0x2#4 ∧ keyed = false) ∨
      w ∈ [0x4#4, 0x5#4, 0x6#4, 0x8#4, 0x9#4, 0xA#4, 0xB#4, 0xC#4, 0xD#4, 0xE#4, 0xF#4] :=
  forall_cmdWord (fun w => firstPhase w keyed = .unit ↔ w = 0x0#4 ∨ (w = 0x2#4 ∧ keyed = false) ∨
    w ∈ [0x4#4, 0x5#4, 0x6#4, 0x8#4, 0x9#4, 0xA#4, 0xB#4, 0xC#4, 0xD#4, 0xE#4, 0xF#4]) (by revert keyed; decide) w

/-! ### An edge of a running command -/

@[simp] theorem phaseEnd_cipher (c : Config) (s : State) : (s.phaseEnd c).cipher = s.cipher := by
  unfold State.phaseEnd; cases s.phase <;> cases c.loadMode <;> rfl

@[simp] theorem phaseEnd_ksDl (c : Config) (s : State) : (s.phaseEnd c).ksDl = s.ksDl := by
  unfold State.phaseEnd; cases s.phase <;> cases c.loadMode <;> rfl

@[simp] theorem phaseEnd_ksUl (c : Config) (s : State) : (s.phaseEnd c).ksUl = s.ksUl := by
  unfold State.phaseEnd; cases s.phase <;> cases c.loadMode <;> rfl

/-- The end of a phase writes neither the registers nor the buffers: what an edge leaves there is its micro-step's. -/
@[simp] theorem busyEdge_cipher (c : Config) (s : State) : (busyEdge c s).cipher = (s.microStep c).cipher := by
  unfold busyEdge; split <;> simp

@[simp] theorem busyEdge_ksDl (c : Config) (s : State) : (busyEdge c s).ksDl = (s.microStep c).ksDl := by
  unfold busyEdge; split <;> simp

@[simp] theorem busyEdge_ksUl (c : Config) (s : State) : (busyEdge c s).ksUl = (s.microStep c).ksUl := by
  unfold busyEdge; split <;> simp

/-- KEYED at an edge of a running command: an edge that completes INIT sets it, one that completes GEN clears it, and
every other edge leaves it. -/
theorem busyEdge_keyed_cases (c : Config) {s : State} (hb : s.busy = true) :
    (s.loading ∧ (busyEdge c s).busy = false ∧ (busyEdge c s).done = true ∧ (busyEdge c s).keyed = true) ∨
    (s.phase = .genUl ∧ (busyEdge c s).busy = false ∧ (busyEdge c s).keyed = false) ∨
    (((busyEdge c s).busy = true ∨ s.phase = .step ∨ s.phase = .unit) ∧ (busyEdge c s).keyed = s.keyed) := by
  obtain ⟨-, e⟩ | ⟨-, hend⟩ := busyEdge_inv c s hb
  · have hb' : (busyEdge c s).busy = true := by simpa [e, State.busy] using hb
    exact .inr (.inr ⟨.inl hb', by simp [e]⟩)
  rcases hend with ⟨hp, hm, e⟩ | ⟨hp, e⟩ | ⟨hp, e⟩ | ⟨hp, e⟩ | ⟨hp, e⟩ | ⟨hp, e⟩ | ⟨hp, e⟩
  · exact .inr (.inr (by simp [e]))
  · exact .inr (.inr (by simp [e]))
  · exact .inr (.inr (by simp [e]))
  · exact .inl ⟨hp.imp And.left .inr, by simp [e]⟩
  · exact .inr (.inl ⟨hp, by simp [e]⟩)
  · exact .inr (.inr (by simp [e, hp]))
  · exact .inr (.inr (by simp [e, hp]))

/-- PHASE UNIT takes one edge, and its micro-step is none. -/
theorem busyEdge_unit (c : Config) {s : State} (h : s.phase = .unit) :
    busyEdge c s = s.complete (commandCode s.cmdL s.keyed) := by
  simp [busyEdge, State.microStep, State.phaseEnd, phaseCount, h]

/-! ### Who may write -/

theorem Accepts.rst_eq_false {p : InPorts} {s : State} (h : Accepts p s) : p.rst = false := h.1

theorem Accepts.phase_eq_idle {p : InPorts} {s : State} (h : Accepts p s) : s.phase = .idle :=
  s.busy_eq_false_iff.1 h.2.2

/-- A busy block accepts nothing. -/
theorem not_accepts_of_busy {p : InPorts} {s : State} (h : s.busy = true) : ¬ Accepts p s :=
  fun ha => by simp [ha.2.2] at h

/-- Settles O41, by what the edge is: a reset, an edge of a running command (INIT completing, GEN completing, or one that
leaves KEYED), an acceptance, or nothing. -/
theorem keyedChangesOnlyByInitGenReset : Obligations.KeyedChangesOnlyByInitGenReset := by
  intro c p s
  obtain ⟨hr, e⟩ | ⟨hr, hb, e⟩ | ⟨ha, e⟩ | ⟨hr, hb, hv, e⟩ := clockEdge_cases c p s <;> rw [e]
  · simp [hr, Accepts]
  · have hna : ¬ Accepts p s := not_accepts_of_busy hb
    obtain ⟨hl, hidle, hdone, hk⟩ | ⟨hp, hidle, hk⟩ | ⟨hnot, hk⟩ := busyEdge_keyed_cases c hb
    · have hp : s.phase ≠ .genUl := by rcases hl with h | h | h <;> simp [h]
      simp [hr, hna, hl, hidle, hdone, hk, hp]
    · simp [hr, hna, hidle, hk, hp, State.loading]
    · have hp : (busyEdge c s).busy = false → ¬ s.loading ∧ s.phase ≠ .genUl := by
        intro hidle
        rcases hnot with h | h | h
        · simp [h] at hidle
        · simp [State.loading, h]
        · simp [State.loading, h]
      refine ⟨?_, fun _ hl hidle => absurd hl (hp hidle).1, ?_, fun _ hg hidle => absurd hg (hp hidle).2, ?_,
        fun ha => absurd ha hna⟩ <;> simp +contextual [hr, hna, hk]
  · have hr := ha.rst_eq_false
    have hp := ha.phase_eq_idle
    refine ⟨?_, ?_, ?_, ?_, ?_, fun _ hg => ((acceptEdge_generating_iff p.offer s).1 hg).symm⟩ <;>
      simp +contextual [hr, hp, ha, State.loading]
  · have hp := s.busy_eq_false_iff.1 hb
    simp +contextual [hr, hp, hv, Accepts, State.loading]

/-- Settles O42: an edge of a running command writes what its micro-step writes, and an acceptance writes only for
INIT. -/
theorem onlyListedWritersChangeRegisters : Obligations.OnlyListedWritersChangeRegisters := by
  intro c p s
  obtain ⟨hr, e⟩ | ⟨hr, hb, e⟩ | ⟨ha, e⟩ | ⟨hr, hb, hv, e⟩ := clockEdge_cases c p s <;> rw [e]
  · simp [hr, Accepts]
  · have hna : ¬ Accepts p s := not_accepts_of_busy hb
    refine ⟨fun h => ?_, fun h => ?_, fun h => ?_, fun h => absurd h hna, fun hp _ => ?_⟩
    · exact .inr (.inr (microStep_cipher_ne c s (by simpa using h)))
    · exact .inr (.inr (microStep_ksDl_ne c s (by simpa using h)))
    · exact .inr (.inr (microStep_ksUl_ne c s (by simpa using h)))
    · rw [busyEdge_unit c hp]; exact ⟨rfl, rfl, rfl, rfl, rfl⟩
  · have hp := ha.phase_eq_idle
    refine ⟨?_, ?_, ?_, fun _ => ⟨acceptEdge_loading_iff p.offer s, acceptEdge_generating_iff p.offer s,
      firstPhase_step_iff p.offer.cmd s.keyed, firstPhase_unit_iff p.offer.cmd s.keyed⟩, ?_⟩
    all_goals simp +contextual [ha, hp]
  · have hp := s.busy_eq_false_iff.1 hb
    simp [hp, hv, Accepts]

end Sys2Proof.Machine
end

