-- ==== Sys2Proof/Proofs/ByteView.lean ====
section
/-! The byte view of a keystream (20_memory R52, R53) and the two byte ports (30_encoding R74): O22. -/

namespace Sys2Proof.Machine

/-- Bit b of byte j is keystream bit 8j + 7 - b: the order within a byte is reversed. -/
@[simp] theorem getLsbD_byteView (ks : Keystream) (j b : Nat) :
    (byteView ks j).getLsbD b = (decide (b < 8) && ks.getLsbD (8 * j + (7 - b))) :=
  getLsbD_bitsOf ..

/-- Bit 8j + b of a byte port is bit b of byte j. -/
theorem getLsbD_bytesPort (ks : Keystream) {j b : Nat} (hj : j < 15) (hb : b < 8) :
    (bytesPort ks).getLsbD (8 * j + b) = (byteView ks j).getLsbD b := by
  have hin : 8 * j + b < 120 := by omega
  have hbyte : (8 * j + b) / 8 = j := by omega
  have hbit : (8 * j + b) % 8 = b := by omega
  rw [bytesPort, getLsbD_bitsOf, hbyte, hbit, decide_eq_true hin, Bool.true_and]

/-- Each byte of a byte port is the byte view's. -/
theorem extractLsb'_bytesPort (ks : Keystream) {j : Nat} (hj : j < 15) :
    (bytesPort ks).extractLsb' (8 * j) 8 = byteView ks j := by
  apply BitVec.eq_of_getLsbD_eq
  intro b hb
  rw [BitVec.getLsbD_extractLsb', decide_eq_true hb, Bool.true_and, getLsbD_bytesPort ks hj hb]

/-- The six low bits of byte 14 stand for bits 114 to 119, past the end of a keystream (R53). -/
theorem getLsbD_byteView_padding (ks : Keystream) {b : Nat} (hb : b ≤ 5) : (byteView ks 14).getLsbD b = false := by
  rw [getLsbD_byteView, BitVec.getLsbD_of_ge ks (8 * 14 + (7 - b)) (by omega), Bool.and_false]

/-- Settles O22: the bit order within a byte is the byte view's reversal undone, and the padding and the ports are the
two lemmas above. -/
theorem byteViewIsMsbFirst : Obligations.ByteViewIsMsbFirst := by
  refine ⟨by decide, fun s => ⟨rfl, rfl⟩, fun ks => ⟨fun j m _ hm _ => ?_,
    fun b hb => getLsbD_byteView_padding ks hb, fun j hj => extractLsb'_bytesPort ks hj⟩⟩
  have hlt : 7 - m < 8 := by omega
  have hrev : 7 - (7 - m) = m := by omega
  rw [getLsbD_byteView, hrev, decide_eq_true hlt, Bool.true_and]

end Sys2Proof.Machine
end

