-- ==== Sys2Proof/Proofs/Encoding.lean ====
section
/-! The encoding (30_encoding R71 to R79): the packed triple, and the words and operands that decode to each
instruction (O27, O25, O26). -/

namespace Sys2Proof.Machine

/-! ### The packed triple (log entry 11) -/

theorem extractLsb'_bits_cmd (p : Command) : p.bits.extractLsb' 0 4 = p.cmd := by
  rw [Command.bits, BitVec.extractLsb'_append_eq_of_add_le (by omega), BitVec.extractLsb'_eq_self]

theorem extractLsb'_bits_key (p : Command) : p.bits.extractLsb' 4 64 = p.key := by
  rw [Command.bits, BitVec.extractLsb'_append_eq_of_le (by omega), BitVec.extractLsb'_append_eq_of_add_le (by omega),
    BitVec.extractLsb'_eq_self]

theorem extractLsb'_bits_frame (p : Command) : p.bits.extractLsb' 68 22 = p.frame := by
  rw [Command.bits, BitVec.extractLsb'_append_eq_of_le (by omega), BitVec.extractLsb'_append_eq_of_le (by omega),
    BitVec.extractLsb'_eq_self]

@[simp] theorem ofBits_bits (p : Command) : Command.ofBits p.bits = p := by
  rw [Command.ofBits, extractLsb'_bits_cmd, extractLsb'_bits_key, extractLsb'_bits_frame]

/-- The three ports' slices are adjacent, so together they are the whole number. -/
@[simp] theorem bits_ofBits (b : BitVec 90) : (Command.ofBits b).bits = b := by
  simp only [Command.bits, Command.ofBits]
  rw [BitVec.extractLsb'_append_extractLsb'_eq_extractLsb' (by omega),
    BitVec.extractLsb'_append_extractLsb'_eq_extractLsb' (by omega), BitVec.extractLsb'_eq_self]

/-! ### Which words and operands decode to an instruction -/

/-- The verdict on the command word of an instruction (R76). -/
def opOf : Instr → Op
  | .nop => .nop
  | .init _ _ => .init
  | .gen => .gen
  | .stepM => .step false
  | .stepF => .step true

/-- The instruction's operands are the values on the triple's ports: INIT has KEY and FRAME, and no other instruction
has an operand there (R72). -/
def OperandsFrom (i : Instr) (p : Command) : Prop :=
  ∀ key frame, i = .init key frame → key = p.key ∧ frame = p.frame

theorem eq_withOperands_iff (i : Instr) (o : Op) (p : Command) :
    i = o.withOperands p ↔ o = opOf i ∧ OperandsFrom i p := by
  cases o with
  | step forceAll => cases forceAll <;> cases i <;> simp [Op.withOperands, opOf, OperandsFrom]
  | nop | init | gen => cases i <;> simp [Op.withOperands, opOf, OperandsFrom]

/-- The decoder and the encoder read the same table: a word has an instruction's verdict exactly when it is the word the
encoder writes (R75, R76). -/
theorem decodeWord_opOf_iff (w : CmdWord) (i : Instr) : decodeWord w = .ok (opOf i) ↔ w = (encode i).cmd := by
  cases i with
  | nop => exact forall_cmdWord (fun w => decodeWord w = .ok .nop ↔ w = 0x0#4) (by decide) w
  | init => exact decodeWord_init_iff w
  | gen => exact decodeWord_gen_iff w
  | stepM => exact forall_cmdWord (fun w => decodeWord w = .ok (.step false) ↔ w = 0x3#4) (by decide) w
  | stepF => exact forall_cmdWord (fun w => decodeWord w = .ok (.step true) ↔ w = 0x7#4) (by decide) w

/-- A triple decodes to an instruction exactly when it holds the instruction's word and operands. -/
theorem decode_ok_iff_encode (p : Command) (i : Instr) :
    decode p = .ok i ↔ p.cmd = (encode i).cmd ∧ OperandsFrom i p := by
  simp only [decode_ok_iff, eq_withOperands_iff, ← decodeWord_opOf_iff]
  constructor
  · rintro ⟨_, hword, rfl, hops⟩; exact ⟨hword, hops⟩
  · rintro ⟨hword, hops⟩; exact ⟨_, hword, rfl, hops⟩

theorem operandsFrom_encode (i : Instr) : OperandsFrom i (encode i) := by
  rintro key frame rfl; exact ⟨rfl, rfl⟩

@[simp] theorem decode_encode (i : Instr) : decode (encode i) = .ok i :=
  (decode_ok_iff_encode _ i).2 ⟨rfl, operandsFrom_encode i⟩

/-- Settles O27: the packing loses nothing, and the converse is the decoder's and the encoder's common table, read at
the slices of the packed triple. -/
theorem decodeEncodeAgree : Obligations.DecodeEncodeAgree :=
  ⟨ofBits_bits, bits_ofBits, fun i => by rw [ofBits_bits, decode_encode],
    fun b i => decode_ok_iff_encode (Command.ofBits b) i⟩

/-! ### Every word has a verdict -/

theorem decodeWord_reservedBitSet_iff (w : CmdWord) :
    decodeWord w = .error .reservedBitSet ↔ w ∈ [0x8#4, 0x9#4, 0xA#4, 0xB#4, 0xC#4, 0xD#4, 0xE#4, 0xF#4] :=
  forall_cmdWord (fun w => decodeWord w = .error .reservedBitSet ↔
    w ∈ [0x8#4, 0x9#4, 0xA#4, 0xB#4, 0xC#4, 0xD#4, 0xE#4, 0xF#4]) (by decide) w

theorem decodeWord_forceWithoutStep_iff (w : CmdWord) :
    decodeWord w = .error .forceWithoutStep ↔ w ∈ [0x4#4, 0x5#4, 0x6#4] :=
  forall_cmdWord (fun w => decodeWord w = .error .forceWithoutStep ↔ w ∈ [0x4#4, 0x5#4, 0x6#4]) (by decide) w

/-- The eleven illegal words, three for the force bit and eight for the reserved bit. -/
theorem exists_decode_error_iff (p : Command) :
    (∃ e, decode p = .error e) ↔
      p.cmd ∈ [0x4#4, 0x5#4, 0x6#4, 0x8#4, 0x9#4, 0xA#4, 0xB#4, 0xC#4, 0xD#4, 0xE#4, 0xF#4] := by
  simp only [decode_error_iff]
  calc (∃ e, decodeWord p.cmd = .error e)
      ↔ decodeWord p.cmd = .error .forceWithoutStep ∨ decodeWord p.cmd = .error .reservedBitSet := by
        constructor
        · rintro ⟨_ | _, he⟩
          · exact .inr he
          · exact .inl he
        · rintro (he | he) <;> exact ⟨_, he⟩
    _ ↔ p.cmd ∈ [0x4#4, 0x5#4, 0x6#4] ++ [0x8#4, 0x9#4, 0xA#4, 0xB#4, 0xC#4, 0xD#4, 0xE#4, 0xF#4] := by
        rw [decodeWord_forceWithoutStep_iff, decodeWord_reservedBitSet_iff, List.mem_append]

/-- Settles O25: an illegal word has one of two reasons, and the word of a command is the one the encoder writes. -/
theorem sixteenWordsHaveVerdicts : Obligations.SixteenWordsHaveVerdicts := by
  intro w key frame
  refine ⟨exists_decode_error_iff ⟨w, key, frame⟩, ?_, ?_, ?_, ?_, ?_⟩ <;>
    simp [decode_ok_iff_encode, OperandsFrom, encode]

/-- Settles O26: seven literal words, each decoded by evaluation. -/
theorem tableWordsDecode : Obligations.TableWordsDecode := by
  unfold Obligations.TableWordsDecode
  decide

end Sys2Proof.Machine
end

