-- ==== Sys2Proof/Proofs/ProgramRun.lean ====
section
/-! A program run by the host (30_encoding R81): steps of the machine against commands executed in order (O32). -/

namespace Sys2Proof.Machine

theorem runGen_with_inputs (c : Config) (s : State) (inputs : List InPorts) :
    runGen c { s with inputs := inputs } = { runGen c s with inputs := inputs } := by
  unfold runGen; split <;> rfl

/-- No command reads or writes what the host will drive next (log entry 8). -/
theorem transact_with_inputs {p : Command} {s t : State} (h : transact p s = .next t) (inputs : List InPorts) :
    transact p { s with inputs := inputs } = .next { t with inputs := inputs } := by
  cases hd : decode p with
  | error e =>
    rw [transact_error p _ e hd] at h ⊢
    cases h; rfl
  | ok i =>
    rw [transact_ok p _ i hd] at h ⊢
    cases i with
    | gen => cases h; exact congrArg _ (runGen_with_inputs Config.build (s.sample p) inputs)
    | nop | init | stepM | stepF => cases h; rfl

/-- Every accepted command ends with DONE = 1 (R192). -/
theorem done_of_transact {p : Command} {s t : State} (h : transact p s = .next t) : t.done = true := by
  cases hd : decode p with
  | error e =>
    rw [transact_error p s e hd] at h
    cases h; rfl
  | ok i =>
    rw [transact_ok p s i hd] at h
    cases i with
    | gen => cases h; unfold runGen; split <;> rfl
    | nop | init | stepM | stepF => cases h; rfl

/-- A command of a program is its transaction, and then the rest of the program. -/
theorem execProgram_cons_of_next {p : Command} {s t : State} (h : transact p s = .next t) (rest : List Command) :
    execProgram (p :: rest) s = execProgram rest t := by
  simp only [execProgram, h]

/-- A program executed between commands ends between commands. -/
theorem execProgram_answers_idle (prog : List Command) (s : State) (hb : s.busy = false) :
    ∃ t, execProgram prog s = .next t ∧ t.busy = false ∧ (prog ≠ [] ∨ s.done = true → t.done = true) := by
  induction prog generalizing s with
  | nil => exact ⟨s, rfl, hb, by simp⟩
  | cons p rest ih =>
    obtain ⟨t, ht, htb⟩ := transact_answers_idle p s
    obtain ⟨u, hu, hub, hdone⟩ := ih t htb
    exact ⟨u, by rw [execProgram_cons_of_next ht, hu], hub, fun _ => hdone (.inr (done_of_transact ht))⟩

/-- An idle block accepts the command that its host offers next (R190). -/
theorem step_of_offering {s : State} (hb : s.busy = false) {p : Command} {rest : List InPorts}
    (hi : s.inputs = .offering p :: rest) : step s = transact p { s with inputs := rest } := by
  simp [step, hostTransaction, hi, hb, InPorts.offering]

/-- A step for each command is the commands one after another: between two steps the block is idle, and the rest of the
program is what the host still drives. -/
theorem run_programInputs (prog : List Command) (s : State) (hb : s.busy = false) :
    Host.Core.run Sys2Proof.core prog.length ({ s with inputs := programInputs prog } : State) =
      execProgram prog { s with inputs := [] } := by
  induction prog generalizing s with
  | nil => rfl
  | cons p rest ih =>
    obtain ⟨t, ht, htb⟩ := transact_answers_idle p s
    have hstep : step { s with inputs := programInputs (p :: rest) } = .next { t with inputs := programInputs rest } :=
      (step_of_offering (s := { s with inputs := programInputs (p :: rest) }) hb rfl).trans (transact_with_inputs ht _)
    have hexec := execProgram_cons_of_next (transact_with_inputs ht []) rest
    exact (run_next rest.length _ _ hstep).trans ((ih t htb).trans hexec.symm)

/-- Settles O32: the run by induction over the program, and its last state by what a transaction leaves. -/
theorem programRunIsCommandsInOrder : Obligations.ProgramRunIsCommandsInOrder := by
  intro prog s hb
  obtain ⟨t, ht, htb, hdone⟩ := execProgram_answers_idle prog { s with inputs := [] } hb
  exact ⟨run_programInputs prog s hb, t, ht, htb, fun hne => hdone (.inl hne)⟩

end Sys2Proof.Machine
end

