-- ==== Sys2Proof/Proofs/AssemblerTable.lean ====
section
/-! The assembler's table (30_encoding R79, R80): what each line gives and which literals are refused (O34). -/

namespace Sys2Proof.Machine

/-! ### Literals -/

theorem hexValue_concat (ds : HexLit) (d : Fin 16) : hexValue (ds ++ [d]) = 16 * hexValue ds + d.val := by
  simp [hexValue]

/-- A literal of n digits is below 16^n, so 16 digits fit KEY. -/
theorem hexValue_lt (ds : HexLit) : hexValue ds < 16 ^ ds.length := by
  induction ds using List.reverseRecOn with
  | nil => simp [hexValue]
  | append_singleton ds d ih =>
    rw [hexValue_concat, List.length_append, List.length_singleton, Nat.pow_succ]
    omega

theorem toNat_key_of_hexLit {key : HexLit} (h : key.length ≤ 16) :
    (BitVec.ofNat 64 (hexValue key)).toNat = hexValue key :=
  (BitVec.toNat_ofNat _ _).trans (Nat.mod_eq_of_lt ((hexValue_lt key).trans_le (Nat.pow_le_pow_right (by omega) h)))

/-! ### INIT's triple, or its refusal -/

theorem assembleInit_of_ok {key frame : HexLit} (hk : keyLiteralOk key = true) (hf : frameLiteralOk frame = true) :
    assembleInit key frame =
      .ok ⟨0x1#4, BitVec.ofNat 64 (hexValue key), BitVec.ofNat 22 (hexValue frame)⟩ := by
  simp [assembleInit, hk, hf, encode]

theorem assembleInit_of_wide_key {key : HexLit} (h : 16 < key.length) (frame : HexLit) :
    assembleInit key frame = .error .keyTooWide := by
  have hk : keyLiteralOk key = false := by simp [keyLiteralOk, h]
  simp [assembleInit, hk]

theorem assembleInit_of_wide_frame {key frame : HexLit} (hk : keyLiteralOk key = true)
    (h : 6 < frame.length ∨ 2 ^ 22 ≤ hexValue frame) : assembleInit key frame = .error .frameTooWide := by
  have hf : frameLiteralOk frame = false := by
    simp only [frameLiteralOk, decide_eq_false_iff_not]
    omega
  simp [assembleInit, hk, hf]

/-! ### Lines -/

/-- INIT and SESSION refuse what `assembleInit` refuses. -/
theorem assembleLine_of_refused {key frame : HexLit} {e : AsmError} (h : assembleInit key frame = .error e) :
    assembleLine (.init key frame) = .error e ∧ assembleLine (.session key frame) = .error e := by
  simp [assembleLine, h, Except.map]

/-- INIT gives its triple, and SESSION that triple and then GEN's (R80). -/
theorem assembleLine_of_assembled {key frame : HexLit} {p : Command} (h : assembleInit key frame = .ok p) :
    assembleLine (.init key frame) = .ok [p] ∧ assembleLine (.session key frame) = .ok [p, encode .gen] := by
  simp [assembleLine, h, Except.map]

/-- `.cmd n` gives the word n, or is refused above 15 (R79). -/
theorem assembleLine_cmd (n : Nat) :
    (n ≤ 15 → ∃ w : CmdWord, w.toNat = n ∧ assembleLine (.cmd n) = .ok [⟨w, 0#64, 0#22⟩]) ∧
      (15 < n → assembleLine (.cmd n) = .error .cmdOutOfRange) :=
  ⟨fun h => ⟨BitVec.ofNat 4 n, Nat.mod_eq_of_lt (by omega), if_pos h⟩, fun h => if_neg (by omega)⟩

/-- Settles O34: the mnemonics without operands and `.cmd` are the table's own lines, and INIT and SESSION follow
`assembleInit`, whose triple holds the literals' values because those fit their ports. -/
theorem assemblerRefusesWideLiterals : Obligations.AssemblerRefusesWideLiterals := by
  refine ⟨⟨rfl, rfl, rfl, rfl, rfl⟩, assembleLine_cmd, fun key frame => ⟨?_, ?_, ?_⟩⟩
  · intro hk1 hk16 hf1 hf6 hval
    have hk : keyLiteralOk key = true := decide_eq_true ⟨hk1, hk16⟩
    have hf : frameLiteralOk frame = true := decide_eq_true ⟨hf1, hf6, hval⟩
    exact ⟨_, _, toNat_key_of_hexLit hk16, (BitVec.toNat_ofNat _ _).trans (Nat.mod_eq_of_lt hval),
      assembleLine_of_assembled (assembleInit_of_ok hk hf)⟩
  · exact fun hk => assembleLine_of_refused (assembleInit_of_wide_key hk frame)
  · intro hk1 hk16 hwide
    have hk : keyLiteralOk key = true := decide_eq_true ⟨hk1, hk16⟩
    exact assembleLine_of_refused (assembleInit_of_wide_frame hk hwide)

end Sys2Proof.Machine
end

