-- ==== Sys2Proof/Proofs/ParityLfsr.lean ====
section
/-! The Bit-Parity Unit and the LFSR advance (40_parity_lfsr R100 to R104): O1 to O4. -/

namespace Sys2Proof.Machine

/-! ### Parity -/

/-- The first n bits alone decide `xorBits _ n`, whatever the two widths. -/
theorem xorBits_congr {w w' : Nat} {u : BitVec w} {v : BitVec w'} {n : Nat}
    (h : ∀ i, i < n → u.getLsbD i = v.getLsbD i) : xorBits u n = xorBits v n := by
  induction n with
  | zero => rfl
  | succ n ih => rw [xorBits, xorBits, ih fun i hi => h i (by omega), h n (by omega)]

/-- The places above the width add nothing. -/
theorem xorBits_of_width_le {w n : Nat} (v : BitVec w) (h : w ≤ n) : xorBits v n = parity v := by
  induction n, h using Nat.le_induction with
  | base => rfl
  | succ n hn ih => rw [xorBits, ih, BitVec.getLsbD_of_ge v n hn, Bool.xor_false]

theorem parity_setWidth {w n : Nat} (v : BitVec w) (h : w ≤ n) : parity (v.setWidth n) = parity v := by
  have hbits : xorBits (v.setWidth n) n = xorBits v n := xorBits_congr fun i hi => by simp [hi]
  exact hbits.trans (xorBits_of_width_le v h)

/-- `foldr` takes the last bit first and `xorBits` takes it last: XOR is associative. -/
theorem xorBits_eq_foldr {w : Nat} (v : BitVec w) (n : Nat) :
    xorBits v n = ((List.range n).map (fun i => v.getLsbD i)).foldr (fun a b => a ^^ b) false := by
  induction n with
  | zero => rfl
  | succ n ih =>
    rw [List.range_succ, List.map_append, List.foldr_append, xorBits, ih]
    simp [← List.foldr_assoc]

/-- One more set bit flips the XOR, and one more clear bit does not. -/
theorem xorBits_eq_true_iff {w : Nat} (v : BitVec w) (n : Nat) :
    xorBits v n = true ↔ ((List.range n).filter (fun i => v.getLsbD i)).length % 2 = 1 := by
  induction n with
  | zero => simp [xorBits]
  | succ n ih =>
    rw [List.range_succ, List.filter_append, List.length_append, xorBits]
    cases hbit : v.getLsbD n with
    | false => simpa [hbit] using ih
    | true =>
      have hflip : (xorBits v n ^^ true) = true ↔ ¬ xorBits v n = true := by simp
      rw [hflip, ih, List.filter_singleton, hbit, cond_true, List.length_singleton]
      omega

theorem parity_eq_true_iff {w : Nat} (v : BitVec w) : parity v = true ↔ popcount v % 2 = 1 :=
  xorBits_eq_true_iff v w

/-- Settles O1: XOR and popcount by induction over the bits, and zero extension because the new bits are clear. -/
theorem parityIsPopcountModTwo : Obligations.ParityIsPopcountModTwo :=
  ⟨fun w v => ⟨xorBits_eq_foldr v w, parity_eq_true_iff v⟩, fun _ _ v h => parity_setWidth v h,
    fun _ => parity_zero, by decide, by decide⟩

/-! ### The shift -/

@[simp] theorem shiftIn_false {w : Nat} (r : BitVec w) : shiftIn r false = r <<< 1 := by
  simp [shiftIn]

theorem shiftIn_zero_true (w : Nat) : shiftIn (0#w) true = 1#w := by
  apply BitVec.eq_of_getLsbD_eq
  intro i hi
  have hw : 0 < w := by omega
  rw [getLsbD_shiftIn, BitVec.getLsbD_one, decide_eq_true hi, decide_eq_true hw]
  simp

/-- The bit that comes in by a shift stands alone in bit 0, so flipping it flips bit 0 only. -/
theorem shiftIn_flip {w : Nat} (r : BitVec w) (x f : Bool) :
    shiftIn r (x ^^ f) = shiftIn r x ^^^ (if f then 1#w else 0#w) := by
  cases f with
  | false => simp
  | true => simpa [shiftIn_zero_true] using shiftIn_xor r 0#w x true

/-- The top bit leaves the register. -/
theorem shiftIn_setBit_top {w : Nat} (r : BitVec (w + 1)) (b x : Bool) : shiftIn (setBit r w b) x = shiftIn r x := by
  apply BitVec.eq_of_getLsbD_eq
  intro i hi
  rw [getLsbD_shiftIn, getLsbD_shiftIn, getLsbD_setBit]
  by_cases h0 : i = 0
  · rw [if_pos h0, if_pos h0]
  · have htop : i - 1 ≠ w := by omega
    rw [if_neg htop]

/-! ### advance and advance_inj -/

theorem getLsbD_advanceInj {w : Nat} (taps r : BitVec w) (f : Bool) {i : Nat} (hi : i < w) :
    (advanceInj taps r f).getLsbD i = if i = 0 then parity (r &&& taps) ^^ f else r.getLsbD (i - 1) := by
  rw [advanceInj, getLsbD_shiftIn, decide_eq_true hi, Bool.true_and]

@[simp] theorem advanceInj_false {w : Nat} (taps r : BitVec w) : advanceInj taps r false = advance taps r := by
  rw [advanceInj, Bool.xor_false, advance]

theorem advanceInj_true {w : Nat} (taps r : BitVec w) : advanceInj taps r true = advance taps r ^^^ 1#w :=
  shiftIn_flip r (parity (r &&& taps)) true

theorem getLsbD_advance {w : Nat} (taps r : BitVec w) {i : Nat} (hi : i < w) :
    (advance taps r).getLsbD i = if i = 0 then parity (r &&& taps) else r.getLsbD (i - 1) := by
  rw [← advanceInj_false, getLsbD_advanceInj taps r false hi, Bool.xor_false]

@[simp] theorem advance_zero {w : Nat} (taps : BitVec w) : advance taps 0#w = 0#w := by
  simp [advance]

/-- Without taps the feedback is 0. -/
@[simp] theorem advance_no_taps {w : Nat} (r : BitVec w) : advance 0#w r = r <<< 1 := by
  simp [advance]

theorem advance_xor {w : Nat} (taps a b : BitVec w) :
    advance taps (a ^^^ b) = advance taps a ^^^ advance taps b := by
  have hmask : (a ^^^ b) &&& taps = (a &&& taps) ^^^ (b &&& taps) := by
    ext i hi
    simp [Bool.and_xor_distrib_right]
  rw [advance, hmask, parity_xor, shiftIn_xor, advance, advance]

/-- The feedback of a register with top bit b: the lower bits give their part, and b counts when its tap is set. -/
theorem parity_setBit_top_and {w : Nat} (taps r : BitVec (w + 1)) (b : Bool) :
    parity (setBit r w b &&& taps) = (xorBits (r &&& taps) w ^^ (b && taps.getLsbD w)) := by
  have hlow : xorBits (setBit r w b &&& taps) w = xorBits (r &&& taps) w :=
    xorBits_congr fun i hi => by simp [getLsbD_setBit, hi.ne]
  rw [parity, xorBits, hlow, BitVec.getLsbD_and, getLsbD_setBit, if_pos rfl, decide_eq_true w.lt_succ_self, Bool.true_and]

theorem advance_setBit_top {w : Nat} (taps r : BitVec (w + 1)) (b : Bool) :
    advance taps (setBit r w b) = shiftIn r (xorBits (r &&& taps) w ^^ (b && taps.getLsbD w)) := by
  rw [advance, shiftIn_setBit_top, parity_setBit_top_and]

/-- The top bit reaches bit 0 of the next value when its tap is set, and nothing else. -/
theorem advance_setBit_top_true {w : Nat} (taps r : BitVec (w + 1)) :
    advance taps (setBit r w true) =
      advance taps (setBit r w false) ^^^ (if taps.getLsbD w then 1#(w + 1) else 0#(w + 1)) := by
  rw [advance_setBit_top, advance_setBit_top, Bool.true_and, Bool.false_and, Bool.xor_false, shiftIn_flip]

/-- Settles O3: zero, no taps and linearity from the laws of the shift and of parity, and the top bit by splitting it
from the lower bits. -/
theorem advanceCornerCases : Obligations.AdvanceCornerCases :=
  ⟨fun _ taps a b => ⟨advance_zero taps, (advance taps a).isLt, advance_no_taps a, advance_xor taps a b⟩,
    fun _ => advance_setBit_top_true, fun mode => by cases mode <;> decide⟩

/-- Settles O2: bit by bit, with the feedback read before the shift. -/
theorem advanceShiftsInTapParity : Obligations.AdvanceShiftsInTapParity :=
  ⟨fun _ taps r _ => getLsbD_advance taps r, fun _ _ _ _ => ⟨rfl, rfl, rfl⟩, by decide⟩

/-- Settles O4: bit by bit, and the injected bit as a flip of the incoming bit. -/
theorem injectedAdvanceFlipsBitZero : Obligations.InjectedAdvanceFlipsBitZero :=
  ⟨fun _ taps r f _ => getLsbD_advanceInj taps r f, fun _ taps r => ⟨advanceInj_false taps r, advanceInj_true taps r⟩,
    by decide⟩

end Sys2Proof.Machine
end

