-- ==== Sys2Proof/Proofs/ClockControl.lean ====
section
/-! The Clock-Control Unit and the commands STEP.M and STEP.F (41_clock_control R120 to R128): O5 to O9. -/

namespace Sys2Proof.Machine

/-! ### One micro-step -/

/-- R122: a forced step asks no clock-control bit. -/
theorem clockStep_true (c : Config) (s : CipherState) :
    clockStep c s true = ⟨advance1 c s.r1, advance2 c s.r2, advance3 c s.r3⟩ := by
  simp [clockStep]

/-- R122: with majority bit m, a majority step advances the registers whose clock-control bit is m. -/
theorem clockStep_false_of_majorityBit {c : Config} {s : CipherState} {m : Bool} (h : majorityBit c s = m) :
    clockStep c s false =
      ⟨if clockBit1 c s = m then advance1 c s.r1 else s.r1, if clockBit2 c s = m then advance2 c s.r2 else s.r2,
       if clockBit3 c s = m then advance3 c s.r3 else s.r3⟩ := by
  simp [clockStep, h]

/-! Two equal clock-control bits are the majority (R124). -/

theorem majorityBit_of_eq12 {c : Config} {s : CipherState} (h : clockBit1 c s = clockBit2 c s) :
    majorityBit c s = clockBit1 c s := by
  rw [majorityBit, ← h]; cases clockBit1 c s <;> simp [majority]

theorem majorityBit_of_eq13 {c : Config} {s : CipherState} (h : clockBit1 c s = clockBit3 c s) :
    majorityBit c s = clockBit1 c s := by
  rw [majorityBit, ← h]; cases clockBit1 c s <;> simp [majority]

theorem majorityBit_of_eq23 {c : Config} {s : CipherState} (h : clockBit2 c s = clockBit3 c s) :
    majorityBit c s = clockBit2 c s := by
  rw [majorityBit, ← h]; cases clockBit2 c s <;> simp [majority]

/-- Settles O5: the two bits that agree are the majority, and the third register advances when its bit agrees too. -/
theorem stepAdvancesMajorityOrAll : Obligations.StepAdvancesMajorityOrAll := by
  intro c s
  refine ⟨clockStep_true c s, ?_, ?_, ?_, ?_⟩
  · intro (h12 : clockBit1 c s = clockBit2 c s) (h13 : clockBit1 c s = clockBit3 c s)
    simp [clockStep_false_of_majorityBit (majorityBit_of_eq12 h12), ← h12, ← h13]
  · intro (h12 : clockBit1 c s = clockBit2 c s) (h13 : clockBit1 c s ≠ clockBit3 c s)
    simp [clockStep_false_of_majorityBit (majorityBit_of_eq12 h12), ← h12, h13.symm]
  · intro (h12 : clockBit1 c s ≠ clockBit2 c s) (h13 : clockBit1 c s = clockBit3 c s)
    simp [clockStep_false_of_majorityBit (majorityBit_of_eq13 h13), ← h13, h12.symm]
  · intro (h23 : clockBit2 c s = clockBit3 c s) (h12 : clockBit1 c s ≠ clockBit2 c s)
    simp [clockStep_false_of_majorityBit (majorityBit_of_eq23 h23), ← h23, h12]

/-! ### Zero registers (R128) -/

theorem clockStep_r1_of_zero {s : CipherState} (h : s.r1 = 0#19) (c : Config) (f : Bool) :
    (clockStep c s f).r1 = 0#19 := by
  simp [clockStep, advance1, h]

theorem clockStep_r2_of_zero {s : CipherState} (h : s.r2 = 0#22) (c : Config) (f : Bool) :
    (clockStep c s f).r2 = 0#22 := by
  simp [clockStep, advance2, h]

theorem clockStep_r3_of_zero {s : CipherState} (h : s.r3 = 0#23) (c : Config) (f : Bool) :
    (clockStep c s f).r3 = 0#23 := by
  simp [clockStep, advance3, h]

@[simp] theorem clockStep_zero (c : Config) (f : Bool) : clockStep c .zero f = .zero := by
  simp [clockStep, CipherState.zero, advance1, advance2, advance3]

/-- At least two of the three registers are all zeros. -/
def CipherState.TwoZero (s : CipherState) : Prop :=
  (s.r2 = 0#22 ∧ s.r3 = 0#23) ∨ (s.r1 = 0#19 ∧ s.r3 = 0#23) ∨ (s.r1 = 0#19 ∧ s.r2 = 0#22)

theorem CipherState.TwoZero.after_clockStep {s : CipherState} (h : s.TwoZero) (c : Config) (f : Bool) :
    (clockStep c s f).TwoZero := by
  rcases h with ⟨h2, h3⟩ | ⟨h1, h3⟩ | ⟨h1, h2⟩
  · exact .inl ⟨clockStep_r2_of_zero h2 c f, clockStep_r3_of_zero h3 c f⟩
  · exact .inr (.inl ⟨clockStep_r1_of_zero h1 c f, clockStep_r3_of_zero h3 c f⟩)
  · exact .inr (.inr ⟨clockStep_r1_of_zero h1 c f, clockStep_r2_of_zero h2 c f⟩)

theorem CipherState.TwoZero.after_majoritySteps {s : CipherState} (h : s.TwoZero) (c : Config) (n : Nat) :
    (majoritySteps c n s).TwoZero := by
  induction n with
  | zero => exact h
  | succ n ih => rw [majoritySteps_succ]; exact ih.after_clockStep c false

/-- The clock-control bits of the two zero registers are 0, and so is the majority. -/
theorem CipherState.TwoZero.majorityBit_eq_false {s : CipherState} (h : s.TwoZero) (c : Config) :
    majorityBit c s = false := by
  rcases h with ⟨h2, h3⟩ | ⟨h1, h3⟩ | ⟨h1, h2⟩
  · simp [majorityBit, majority, clockBit2, clockBit3, h2, h3]
  · simp [majorityBit, majority, clockBit1, clockBit3, h1, h3]
  · simp [majorityBit, majority, clockBit1, clockBit2, h1, h2]

/-- A state that a majority step leaves as it is stays for ever. -/
theorem majoritySteps_of_fixed {c : Config} {s : CipherState} (h : clockStep c s false = s) (n : Nat) :
    majoritySteps c n s = s := by
  induction n with
  | zero => rfl
  | succ n ih => rw [majoritySteps_succ, ih, h]

/-! A majority step with two zero registers: the third advances when its clock-control bit is 0, and holds otherwise. -/

theorem clockStep_false_of_zero23 {s : CipherState} (h2 : s.r2 = 0#22) (h3 : s.r3 = 0#23) (c : Config) :
    clockStep c s false = if clockBit1 c s = false then ⟨advance1 c s.r1, 0#22, 0#23⟩ else s := by
  have hz : s.TwoZero := .inl ⟨h2, h3⟩
  obtain ⟨r1, r2, r3⟩ := s
  obtain rfl : r2 = 0#22 := h2
  obtain rfl : r3 = 0#23 := h3
  rw [clockStep_false_of_majorityBit (hz.majorityBit_eq_false c)]
  by_cases hbit : clockBit1 c ⟨r1, 0#22, 0#23⟩ = false <;> simp [hbit, advance2, advance3]

theorem clockStep_false_of_zero13 {s : CipherState} (h1 : s.r1 = 0#19) (h3 : s.r3 = 0#23) (c : Config) :
    clockStep c s false = if clockBit2 c s = false then ⟨0#19, advance2 c s.r2, 0#23⟩ else s := by
  have hz : s.TwoZero := .inr (.inl ⟨h1, h3⟩)
  obtain ⟨r1, r2, r3⟩ := s
  obtain rfl : r1 = 0#19 := h1
  obtain rfl : r3 = 0#23 := h3
  rw [clockStep_false_of_majorityBit (hz.majorityBit_eq_false c)]
  by_cases hbit : clockBit2 c ⟨0#19, r2, 0#23⟩ = false <;> simp [hbit, advance1, advance3]

theorem clockStep_false_of_zero12 {s : CipherState} (h1 : s.r1 = 0#19) (h2 : s.r2 = 0#22) (c : Config) :
    clockStep c s false = if clockBit3 c s = false then ⟨0#19, 0#22, advance3 c s.r3⟩ else s := by
  have hz : s.TwoZero := .inr (.inr ⟨h1, h2⟩)
  obtain ⟨r1, r2, r3⟩ := s
  obtain rfl : r1 = 0#19 := h1
  obtain rfl : r2 = 0#22 := h2
  rw [clockStep_false_of_majorityBit (hz.majorityBit_eq_false c)]
  by_cases hbit : clockBit3 c ⟨0#19, 0#22, r3⟩ = false <;> simp [hbit, advance1, advance2]

/-- R128 for the third register, whichever it is: b is its clock-control bit and t the state in which it has advanced. -/
theorem CipherState.TwoZero.sticks {s t : CipherState} (h : s.TwoZero) {c : Config} {b : Bool}
    (hstep : clockStep c s false = if b = false then t else s) :
    (∀ n, majorityBit c (majoritySteps c n s) = false) ∧ (b = false → clockStep c s false = t) ∧
      (b = true → ∀ n, majoritySteps c n s = s) :=
  ⟨fun n => (h.after_majoritySteps c n).majorityBit_eq_false c, fun hb => by rw [hstep, if_pos hb],
    fun hb => majoritySteps_of_fixed (by rw [hstep, if_neg (by simp [hb])])⟩

/-- Settles O7: two zero registers stay zero and keep the majority at 0, and the third advances exactly when its
clock-control bit is 0. -/
theorem twoZeroRegistersStick : Obligations.TwoZeroRegistersStick := fun c _ =>
  ⟨fun f => ⟨fun h => clockStep_r1_of_zero h c f, fun h => clockStep_r2_of_zero h c f,
      fun h => clockStep_r3_of_zero h c f⟩,
    fun h2 h3 => CipherState.TwoZero.sticks (.inl ⟨h2, h3⟩) (clockStep_false_of_zero23 h2 h3 c),
    fun h1 h3 => CipherState.TwoZero.sticks (.inr (.inl ⟨h1, h3⟩)) (clockStep_false_of_zero13 h1 h3 c),
    fun h1 h2 => CipherState.TwoZero.sticks (.inr (.inr ⟨h1, h2⟩)) (clockStep_false_of_zero12 h1 h2 c)⟩

/-! ### Linearity (R127) -/

theorem clockStep_true_xor (c : Config) (a b : CipherState) :
    clockStep c (a.xor b) true = (clockStep c a true).xor (clockStep c b true) := by
  simp [clockStep_true, CipherState.xor, advance1, advance2, advance3, advance_xor]

/-- A register that an advance leaves as it is has all its bits equal: each bit takes its lower neighbour's value. -/
theorem getLsbD_of_advance_eq_self {w : Nat} {taps r : BitVec w} (h : advance taps r = r) {i : Nat} (hi : i < w) :
    r.getLsbD i = r.getLsbD 0 := by
  induction i with
  | zero => rfl
  | succ i ih =>
    rw [← ih (by omega), ← congrArg (BitVec.getLsbD · (i + 1)) h]
    exact getLsbD_advance taps r hi

/-- One set bit alone moves, whatever the taps feed back: bits 0 and 1 are not both that bit. -/
theorem advance_twoPow_ne {w : Nat} (taps : BitVec w) {i : Nat} (hi : i < w) (hw : 1 < w) :
    advance taps (BitVec.twoPow w i) ≠ BitVec.twoPow w i := by
  intro h
  have hbit := getLsbD_of_advance_eq_self h hi
  have hbit1 := getLsbD_of_advance_eq_self h hw
  simp only [BitVec.getLsbD_twoPow, hi, decide_true, Bool.true_and] at hbit hbit1
  have hi0 : i = 0 := by simpa using hbit.symm
  simp [hi0] at hbit1

/-- The CipherState whose one set bit is R1's clock-control bit. -/
def clockBitOnly1 (c : Config) : CipherState := { CipherState.zero with r1 := BitVec.twoPow 19 c.clkbit1 }

/-- The CipherState whose one set bit is R2's clock-control bit. -/
def clockBitOnly2 (c : Config) : CipherState := { CipherState.zero with r2 := BitVec.twoPow 22 c.clkbit2 }

/-- The CipherState with both clock-control bits set, and no other bit. -/
def clockBitsOnly12 (c : Config) : CipherState := (clockBitOnly1 c).xor (clockBitOnly2 c)

/-- R1's clock-control bit alone disagrees with two zero registers, so R1 holds. -/
theorem clockStep_clockBitOnly1 (c : Config) : clockStep c (clockBitOnly1 c) false = clockBitOnly1 c := by
  have hbit : clockBit1 c (clockBitOnly1 c) = true := by simp [clockBit1, clockBitOnly1]
  rw [clockStep_false_of_zero23 rfl rfl, if_neg (by simp [hbit])]

/-- The clock-control bits of R1 and R2 together are the majority, so R1 advances. -/
theorem clockStep_clockBitsOnly12_r1 (c : Config) :
    (clockStep c (clockBitsOnly12 c) false).r1 = advance c.taps1 (BitVec.twoPow 19 c.clkbit1) := by
  have hr1 : (clockBitsOnly12 c).r1 = BitVec.twoPow 19 c.clkbit1 := BitVec.xor_zero
  have hr2 : (clockBitsOnly12 c).r2 = BitVec.twoPow 22 c.clkbit2 := BitVec.zero_xor
  have hagree : clockBit1 c (clockBitsOnly12 c) = clockBit2 c (clockBitsOnly12 c) := by
    simp [clockBit1, clockBit2, hr1, hr2]
  rw [clockStep_false_of_majorityBit (majorityBit_of_eq12 hagree), if_pos rfl, advance1, hr1]

/-- R127: R1 advances in the sum of two states in neither of which it changes. -/
theorem clockStep_false_not_xor (c : Config) :
    clockStep c ((clockBitOnly1 c).xor (clockBitOnly2 c)) false ≠
      (clockStep c (clockBitOnly1 c) false).xor (clockStep c (clockBitOnly2 c) false) := by
  intro h
  apply advance_twoPow_ne c.taps1 c.clkbit1.isLt (by omega)
  calc advance c.taps1 (BitVec.twoPow 19 c.clkbit1)
      = (clockStep c (clockBitsOnly12 c) false).r1 := (clockStep_clockBitsOnly12_r1 c).symm
    _ = (clockStep c (clockBitOnly1 c) false).r1 ^^^ (clockStep c (clockBitOnly2 c) false).r1 :=
        congrArg CipherState.r1 h
    _ = (clockBitOnly1 c).r1 ^^^ 0#19 := by rw [clockStep_clockBitOnly1, clockStep_r1_of_zero rfl]
    _ = BitVec.twoPow 19 c.clkbit1 := BitVec.xor_zero

/-- Settles O6: an advance is linear, and two states of one set bit each show that the choice of registers is not. -/
theorem onlyForcedStepIsLinear : Obligations.OnlyForcedStepIsLinear :=
  ⟨clockStep_true_xor, fun c => ⟨clockBitOnly1 c, clockBitOnly2 c, clockStep_false_not_xor c⟩⟩

/-! ### STEP.M and STEP.F -/

@[simp] theorem runStepCommand_cipher (c : Config) (f : Bool) (s : State) :
    (runStepCommand c f s).cipher = clockStep c s.cipher f := rfl

/-- What a STEP command writes besides the registers, and what it leaves (R125, R126, R192). -/
theorem runStepCommand_frame (c : Config) (f : Bool) (s : State) :
    (runStepCommand c f s).done = true ∧ (runStepCommand c f s).errcode = .none ∧
      (runStepCommand c f s).keyed = s.keyed ∧ (runStepCommand c f s).err = s.err ∧
      (runStepCommand c f s).ksDl = s.ksDl ∧ (runStepCommand c f s).ksUl = s.ksUl ∧
      (runStepCommand c f s).busy = false :=
  ⟨rfl, rfl, rfl, errAfter_none s.err, rfl, rfl, rfl⟩

/-- A STEP command leaves the zero CipherState as it is. -/
theorem runStepCommand_cipher_of_zero (c : Config) (f : Bool) {s : State} (h : s.cipher = .zero) :
    (runStepCommand c f s).cipher = .zero := by
  rw [runStepCommand_cipher, h, clockStep_zero]

/-- Bit i of the downlink buffer after GEN is the output bit after i majority steps (R171). -/
theorem getLsbD_runGen_ksDl (c : Config) {s : State} (h : s.keyed = true) {i : Nat} (hi : i < 114) :
    (runGen c s).ksDl.getLsbD i = outbit (majoritySteps c i s.cipher) := by
  have hbuf : (runGen c s).ksDl = (genDirection c s.ksDl s.cipher).1 := by rw [runGen_keyed c s h]
  rw [hbuf, genDirection, (iter_genCycle c 114 s.ksDl s.cipher).2 i hi, if_pos hi]

/-- Settles O8: a STEP command is a micro-step and a completion, and the first bit of a GEN after it is the output bit of
the stepped state. -/
theorem stepMStepsByMajority : Obligations.StepMStepsByMajority := by
  refine ⟨fun _ _ => (decode_ok_iff _ .stepM).2 ⟨_, (decodeWord_opOf_iff 0x3#4 .stepM).2 rfl, rfl⟩, fun s => ?_,
    fun mode => by cases mode <;> decide⟩
  obtain ⟨hdone, hcode, hkeyed, herr, hdl, hul, hbusy⟩ := runStepCommand_frame Config.build false s
  exact ⟨_, exec_stepM s, runStepCommand_cipher .., runStepCommand_cipher_of_zero _ _, hdone, hcode, hkeyed, herr, hdl,
    hul, hbusy, fun hk => ⟨exec_gen _, getLsbD_runGen_ksDl Config.build (hkeyed.trans hk) (by decide)⟩⟩

/-- Settles O9: a STEP command is a micro-step, here a forced one, and a completion. -/
theorem stepFAdvancesAllRegisters : Obligations.StepFAdvancesAllRegisters :=
  ⟨fun _ _ => (decode_ok_iff _ .stepF).2 ⟨_, (decodeWord_opOf_iff 0x7#4 .stepF).2 rfl, rfl⟩,
    fun s => ⟨_, exec_stepF s, clockStep_true Config.build s.cipher, runStepCommand_cipher_of_zero _ _,
      runStepCommand_frame Config.build true s⟩,
    fun mode f => by cases mode <;> cases f <;> decide⟩

end Sys2Proof.Machine
end

