-- ==== Sys2Proof/Proofs/KeyFrameLoader.lean ====
section
/-! The Key/Frame Loader and the command INIT (42_key_frame_loader R140 to R153): O10 to O16. -/

namespace Sys2Proof.Machine

/-! ### Key loading: a register's slice of the key -/

/-- n shifts that bring in key bits in falling order, the last of them bit lo, leave the slice of w bits from lo: the
bits before it have left the register. -/
theorem iter_shiftIn_eq_extractLsb' {w n lo : Nat} (hw : w ≤ n) {key : Key} {f : Nat → Bool}
    (h : ∀ j, j < w → f (n - 1 - j) = key.getLsbD (lo + j)) :
    iter (fun i (r : BitVec w) => shiftIn r (f i)) n 0 0#w = key.extractLsb' lo w := by
  apply BitVec.eq_of_getLsbD_eq
  intro j hj
  have hn : j < n := by omega
  rw [getLsbD_iter_shiftIn, BitVec.getLsbD_extractLsb', h j hj, decide_eq_true hn, Bool.and_true]

/-- R143: 64 shifts of the whole key leave its low bits, at every width of register. -/
theorem iter_shiftIn_keyBitArtifact {w : Nat} (hw : w ≤ 64) (key : Key) :
    iter (fun i (r : BitVec w) => shiftIn r (keyBitArtifact key i)) 64 0 0#w = key.extractLsb' 0 w :=
  iter_shiftIn_eq_extractLsb' hw fun j hj => congrArg key.getLsbD (by omega)

theorem keyloadArtifact_eq (key : Key) :
    keyloadArtifact key = ⟨key.extractLsb' 0 19, key.extractLsb' 0 22, key.extractLsb' 0 23⟩ := by
  simp only [keyloadArtifact, iter_artifactKeyStep, CipherState.zero, iter_shiftIn_keyBitArtifact, Nat.reduceLeDiff]

/-- A loop body that holds from index m on is a loop of m iterations. -/
theorem iter_ite_lt {α : Type} (f : Nat → α → α) (m k : Nat) (a : α) :
    iter (fun i x => if i < m then f i x else x) (m + k) 0 a = iter f m 0 a := by
  have hfirst : iter (fun i x => if i < m then f i x else x) m 0 a = iter f m 0 a :=
    iter_congr _ _ m 0 a fun i x _ hi => if_pos (by omega)
  rw [iter_add, hfirst]
  exact iter_keeps (fun _ x => x = iter f m 0 a) _ k (0 + m) _
    (fun i x hi _ hx => (if_neg (by omega)).trans hx) rfl

/-- R145, the parallel form: each register holds once it has its slice. -/
theorem keyloadIntended_eq (key : Key) :
    keyloadIntended key = ⟨key.extractLsb' 45 19, key.extractLsb' 23 22, key.extractLsb' 0 23⟩ := by
  have h1 : iter (fun i (r : Reg1) => if i < 19 then shiftIn r (keyBitIntended1 key i) else r) 23 0 0#19 =
      key.extractLsb' 45 19 :=
    (iter_ite_lt _ 19 4 _).trans (iter_shiftIn_eq_extractLsb' le_rfl fun j hj => congrArg key.getLsbD (by omega))
  have h2 : iter (fun i (r : Reg2) => if i < 22 then shiftIn r (keyBitIntended2 key i) else r) 23 0 0#22 =
      key.extractLsb' 23 22 :=
    (iter_ite_lt _ 22 1 _).trans (iter_shiftIn_eq_extractLsb' le_rfl fun j hj => congrArg key.getLsbD (by omega))
  have h3 : iter (fun i (r : Reg3) => shiftIn r (keyBitIntended3 key i)) 23 0 0#23 = key.extractLsb' 0 23 :=
    iter_shiftIn_eq_extractLsb' le_rfl fun j hj => congrArg key.getLsbD (by omega)
  rw [keyloadIntended, iter_intendedKeyStep, ← h1, ← h2, ← h3]
  rfl

/-- The cursor falls by one with each bit taken. -/
theorem iter_cursor {w : Nat} (key : Key) (r : BitVec w) (cursor n : Nat) :
    iter (fun _ (x : BitVec w × Nat) => (shiftIn x.1 (key.getLsbD x.2), x.2 - 1)) n 0 (r, cursor) =
      (iter (fun i r => shiftIn r (key.getLsbD (cursor - i))) n 0 r, cursor - n) := by
  induction n with
  | zero => rfl
  | succ n ih => rw [iter_last, iter_last, ih, Nat.zero_add, Nat.sub_sub]

/-- A cursor at bit lo + w - 1 loads the w bits from lo, and is left at the next bit below. -/
theorem cursorLoad_eq {w : Nat} (key : Key) {cursor lo : Nat} (h : cursor + 1 = lo + w) :
    cursorLoad key 0#w cursor = (key.extractLsb' lo w, cursor - w) := by
  have hslice : iter (fun i (r : BitVec w) => shiftIn r (key.getLsbD (cursor - i))) w 0 0#w = key.extractLsb' lo w :=
    iter_shiftIn_eq_extractLsb' le_rfl fun j hj => congrArg key.getLsbD (by omega)
  rw [cursorLoad, iter_cursor, hslice]

/-- R145, the specification form. -/
theorem keyloadIntendedCursor_eq (key : Key) :
    keyloadIntendedCursor key = ⟨key.extractLsb' 45 19, key.extractLsb' 23 22, key.extractLsb' 0 23⟩ := by
  simp only [keyloadIntendedCursor, CipherState.zero, cursorLoad_eq (w := 19) (lo := 45) key (cursor := 63) rfl,
    cursorLoad_eq (w := 22) (lo := 23) key (cursor := 63 - 19) rfl,
    cursorLoad_eq (w := 23) (lo := 0) key (cursor := 63 - 19 - 22) rfl]

/-- Settles O10: a register's low bits of the key are the low bits of KEY[22:0]. -/
theorem artifactLoadKeepsLowKeyBits : Obligations.ArtifactLoadKeepsLowKeyBits := by
  refine ⟨keyloadArtifact_eq, fun key key' h => ?_, by rw [keyloadArtifact_eq]; decide⟩
  have hlow : ∀ w, w ≤ 23 → key.extractLsb' 0 w = key'.extractLsb' 0 w := by
    intro w hw
    have hslice := congrArg (BitVec.extractLsb' 0 w) h
    rwa [BitVec.extractLsb'_extractLsb'_of_le (by omega), BitVec.extractLsb'_extractLsb'_of_le (by omega)] at hslice
  rw [keyloadArtifact_eq, keyloadArtifact_eq, hlow 19 (by decide), hlow 22 (by decide), h]

/-- Settles O12: both forms load the same three slices. -/
theorem intendedLoadSplitsKey : Obligations.IntendedLoadSplitsKey :=
  ⟨fun key => ⟨keyloadIntendedCursor_eq key, (keyloadIntended_eq key).trans (keyloadIntendedCursor_eq key).symm⟩,
    fun _ _ _ _ => rfl, by rw [keyloadIntended_eq]; decide⟩

/-! ### INIT's CipherState in each mode -/

/-- R144: ARTIFACT mode has no frame phase and no discard phase. -/
theorem initCipher_artifact {c : Config} (h : c.loadMode = .artifact) (key : Key) (frame : Frame) :
    initCipher c key frame = ⟨key.extractLsb' 0 19, key.extractLsb' 0 22, key.extractLsb' 0 23⟩ := by
  simp only [initCipher, h, keyloadArtifact_eq]

theorem initCipher_intended {c : Config} (h : c.loadMode = .intended) (key : Key) (frame : Frame) :
    initCipher c key frame = discardPhase c (frameMix c frame (keyloadIntended key)) := by
  simp only [initCipher, h]

/-- R150: 64 key-loading micro-steps, or 23 with 22 of frame mixing and 100 of the discard phase. -/
theorem length_initTrace (c : Config) (key : Key) (frame : Frame) :
    (initTrace c key frame).length = match c.loadMode with | .artifact => 64 | .intended => 145 := by
  unfold initTrace
  cases c.loadMode <;> simp

/-- Settles O11: the key load alone is INIT's CipherState, so FRAME reaches the latch only. -/
theorem artifactInitIgnoresFrame : Obligations.ArtifactInitIgnoresFrame := by
  intro c key frame frame' h
  refine ⟨initCipher_artifact h key frame, by rw [length_initTrace, h], fun s => ?_⟩
  rw [runInit_eq, runInit_eq, initCipher_artifact h, initCipher_artifact h]

/-! ### Linearity over GF(2) (R148) -/

theorem CipherState.xor_self (a : CipherState) : a.xor a = .zero := by
  simp [CipherState.xor, CipherState.zero]

/-- The injected bit is added to the register on its own. -/
theorem advanceInj_eq_xor {w : Nat} (taps r : BitVec w) (f : Bool) :
    advanceInj taps r f = advance taps r ^^^ shiftIn 0#w f := by
  simpa [advanceInj, advance] using shiftIn_xor r 0#w (parity (r &&& taps)) f

theorem advanceInj_xor {w : Nat} (taps a b : BitVec w) (x y : Bool) :
    advanceInj taps (a ^^^ b) (x ^^ y) = advanceInj taps a x ^^^ advanceInj taps b y := by
  have hbit : shiftIn 0#w (x ^^ y) = shiftIn 0#w x ^^^ shiftIn 0#w y := by simpa using shiftIn_xor 0#w 0#w x y
  simp only [advanceInj_eq_xor, advance_xor, hbit]
  ac_rfl

theorem intendedKeyStep_xor (k k' : Key) (i : Nat) (a b : CipherState) :
    intendedKeyStep (k ^^^ k') i (a.xor b) = (intendedKeyStep k i a).xor (intendedKeyStep k' i b) := by
  simp only [intendedKeyStep, CipherState.xor, keyBitIntended1, keyBitIntended2, keyBitIntended3, BitVec.getLsbD_xor,
    shiftIn_xor]
  by_cases h1 : i < 19 <;> by_cases h2 : i < 22 <;> simp [h1, h2]

theorem frameMixStep_xor (c : Config) (f f' : Frame) (i : Nat) (a b : CipherState) :
    frameMixStep c (f ^^^ f') i (a.xor b) = (frameMixStep c f i a).xor (frameMixStep c f' i b) := by
  simp only [frameMixStep, CipherState.xor, frameBit, BitVec.getLsbD_xor, advanceInj_xor]

/-- A loop of linear micro-steps is linear. -/
theorem iter_xor {f g h : Nat → CipherState → CipherState}
    (step : ∀ i a b, h i (a.xor b) = (f i a).xor (g i b)) (n i : Nat) (a b : CipherState) :
    iter h n i (a.xor b) = (iter f n i a).xor (iter g n i b) := by
  induction n with
  | zero => rfl
  | succ n ih => rw [iter_last, iter_last, iter_last, ih, step]

theorem keyloadIntended_xor (k k' : Key) :
    keyloadIntended (k ^^^ k') = (keyloadIntended k).xor (keyloadIntended k') :=
  iter_xor (intendedKeyStep_xor k k') 23 0 .zero .zero

theorem frameMix_xor (c : Config) (f f' : Frame) (a b : CipherState) :
    frameMix c (f ^^^ f') (a.xor b) = (frameMix c f a).xor (frameMix c f' b) :=
  iter_xor (frameMixStep_xor c f f') 22 0 a b

theorem discardPhase_xor (c : Config) (a b : CipherState) :
    discardPhase c (a.xor b) = (discardPhase c a).xor (discardPhase c b) :=
  iter_xor (fun _ => clockStep_true_xor c) 100 0 a b

theorem initCipher_xor {c : Config} (h : c.loadMode = .intended) (k k' : Key) (f f' : Frame) :
    initCipher c (k ^^^ k') (f ^^^ f') = (initCipher c k f).xor (initCipher c k' f') := by
  simp only [initCipher_intended h, keyloadIntended_xor, frameMix_xor, discardPhase_xor]

/-- R149: zero operands load the zero CipherState, in ARTIFACT mode as slices of zero and in INTENDED mode because a
linear function takes 0 = 0 ^ 0 to x ^ x. -/
theorem initCipher_zero (c : Config) : initCipher c 0#64 0#22 = .zero := by
  cases h : c.loadMode with
  | artifact => rw [initCipher_artifact h]; rfl
  | intended => exact (initCipher_xor h 0#64 0#64 0#22 0#22).trans (CipherState.xor_self _)

/-- Settles O13: each micro-step is linear by the linearity of the shift and of the advance, and INIT's CipherState is
a loop of them. -/
theorem intendedInitIsLinear : Obligations.IntendedInitIsLinear := fun c h =>
  ⟨fun k k' f f' i a b => ⟨intendedKeyStep_xor k k' i a b, frameMixStep_xor c f f' i a b, clockStep_true_xor c a b⟩,
    initCipher_xor h, initCipher_zero c⟩

/-! ### Frame mixing (R149) -/

/-- A register that starts at zero stays zero while the injected bits are 0, and the first 1 injected enters at bit 0
and moves up one place with each iteration. -/
theorem iter_advanceInj_zero_cases {w n : Nat} (hn : n ≤ w) (taps : BitVec w) (f : Nat → Bool) :
    (iter (fun i r => advanceInj taps r (f i)) n 0 0#w = 0#w ∧ ∀ i, i < n → f i = false) ∨
      ∃ j, j < n ∧ (iter (fun i r => advanceInj taps r (f i)) n 0 0#w).getLsbD j = true := by
  induction n with
  | zero => exact .inl ⟨rfl, by simp⟩
  | succ n ih =>
    rw [iter_last, Nat.zero_add]
    obtain ⟨hr, hf⟩ | ⟨j, hj, hbit⟩ := ih (by omega)
    · cases hfn : f n with
      | false =>
        refine .inl ⟨by simp [hr], fun i hi => ?_⟩
        rcases Nat.lt_succ_iff_lt_or_eq.1 hi with hlt | rfl
        · exact hf i hlt
        · exact hfn
      | true => exact .inr ⟨0, by omega, by rw [getLsbD_advanceInj _ _ _ (by omega)]; simp [hr]⟩
    · exact .inr ⟨j + 1, by omega, by rw [getLsbD_advanceInj _ _ _ (by omega)]; exact hbit⟩

/-- The 22 iterations are too few to move the first 1 of the frame out of a register of 22 bits or more. -/
theorem iter_advanceInj_ne_zero {w : Nat} (hw : 22 ≤ w) (taps : BitVec w) {frame : Frame} (h : frame ≠ 0#22) :
    iter (fun i r => advanceInj taps r (frame.getLsbD i)) 22 0 0#w ≠ 0#w := by
  intro hz
  obtain ⟨-, hf⟩ | ⟨j, -, hbit⟩ := iter_advanceInj_zero_cases hw taps frame.getLsbD
  · exact h (BitVec.eq_of_getLsbD_eq fun i hi => by rw [hf i hi, BitVec.getLsbD_zero])
  · simp [hz] at hbit

/-- Settles O14: KEY = 0 loads zero, and neither R2 nor R3 loses the first 1 of the frame. -/
theorem frameMixOfNonzeroFrameIsNonzero : Obligations.FrameMixOfNonzeroFrameIsNonzero := by
  intro c frame h
  have hload : keyloadIntended 0#64 = .zero := (keyloadIntended_eq 0#64).trans rfl
  rw [hload, frameMix, iter_frameMixStep]
  have h2 := iter_advanceInj_ne_zero (by decide) c.taps2 h
  have h3 := iter_advanceInj_ne_zero (by decide) c.taps3 h
  exact ⟨fun hz => h2 (congrArg CipherState.r2 hz), h2, h3⟩

theorem shiftIn_allOnes_true (w : Nat) : shiftIn (BitVec.allOnes w) true = BitVec.allOnes w := by
  apply BitVec.eq_of_getLsbD_eq
  intro i hi
  have hlow : i - 1 < w := by omega
  simp [getLsbD_shiftIn, hi, hlow]

/-- With an even tap mask the feedback of all ones is 0, so the injected 1 is what comes in. -/
theorem advanceInj_allOnes_true {w : Nat} {taps : BitVec w} (h : popcount taps % 2 = 0) :
    advanceInj taps (BitVec.allOnes w) true = BitVec.allOnes w := by
  have hpar : parity taps = false := by
    rw [← Bool.not_eq_true, parity_eq_true_iff, h]; decide
  rw [advanceInj, BitVec.allOnes_and, hpar, Bool.false_xor, shiftIn_allOnes_true]

/-- Settles O15: each iteration keeps all ones, and KEY all ones loads them. -/
theorem frameMixKeepsAllOnes : Obligations.FrameMixKeepsAllOnes := by
  intro c h1 h2 h3
  have hstep : ∀ i, i < 22 →
      frameMixStep c (BitVec.allOnes 22) i ⟨BitVec.allOnes 19, BitVec.allOnes 22, BitVec.allOnes 23⟩ =
        ⟨BitVec.allOnes 19, BitVec.allOnes 22, BitVec.allOnes 23⟩ := by
    intro i hi
    have hbit : frameBit (BitVec.allOnes 22) i = true := by rw [frameBit, BitVec.getLsbD_allOnes, decide_eq_true hi]
    rw [frameMixStep, hbit, advanceInj_allOnes_true h1, advanceInj_allOnes_true h2, advanceInj_allOnes_true h3]
  have hload : keyloadIntended (BitVec.allOnes 64) = ⟨BitVec.allOnes 19, BitVec.allOnes 22, BitVec.allOnes 23⟩ :=
    (keyloadIntended_eq _).trans (by decide)
  refine ⟨hstep, ?_⟩
  rw [hload]
  exact iter_keeps (fun _ x => x = _) (frameMixStep c (BitVec.allOnes 22)) 22 0 _
    (fun i x _ hi hx => by rw [hx, hstep i (by omega)]) rfl

/-! ### INIT as a command -/

/-- Settles O16: INIT's fields are `runInit_eq`'s, and its CipherState is its mode's. -/
theorem initLoadsCipherState : Obligations.InitLoadsCipherState := by
  refine ⟨fun key frame => decode_encode (.init key frame), fun key frame s => ⟨_, exec_init key frame s, ?_⟩⟩
  rw [runInit_eq]
  refine ⟨?_, ?_, rfl, rfl, rfl, rfl, rfl, rfl, rfl⟩
  · cases h : Config.build.loadMode with
    | artifact => exact initCipher_artifact h key frame
    | intended => rw [← keyloadIntended_eq]; exact initCipher_intended h key frame
  · rintro rfl rfl
    exact initCipher_zero Config.build

end Sys2Proof.Machine
end

