-- ==== Sys2Proof/Proofs/Trace.lean ====
section
/-! The trace of a command (44_command_interface R197): its length and its last element (O44). -/

namespace Sys2Proof.Machine

/-- INIT's trace ends in the CipherState INIT loads. -/
theorem getLast?_initTrace (c : Config) (key : Key) (frame : Frame) :
    (initTrace c key frame).getLast? = some (initCipher c key frame) := by
  unfold initTrace initCipher
  cases c.loadMode with
  | artifact => exact getLast?_scan _ 63 0 _
  | intended => simp only [List.getLast?_append, getLast?_scan, Option.some_or]; rfl

theorem length_genTrace (c : Config) (x : CipherState) : (genTrace c x).length = 228 := length_scan ..

theorem getLast?_genTrace (c : Config) (x : CipherState) :
    (genTrace c x).getLast? = some (majoritySteps c 228 x) :=
  getLast?_scan _ 227 0 x

/-- R173: the uplink goes on from where the downlink ended, so the two directions are 228 majority steps. -/
theorem runGen_cipher (c : Config) {s : State} (h : s.keyed = true) :
    (runGen c s).cipher = majoritySteps c 228 s.cipher := by
  have hdir : ∀ buf x, (genDirection c buf x).2 = majoritySteps c 114 x := fun buf x => (iter_genCycle c 114 buf x).1
  rw [runGen_keyed c s h]
  simp only [hdir]
  rw [← majoritySteps_add]

/-- The trace is that of the instruction a triple decodes to. -/
theorem trace_of_decode_ok {p : Command} {i : Instr} (h : decode p = .ok i) (c : Config) (s : State) :
    trace c p s = trace c (encode i) s := by
  simp only [trace, h, decode_encode]

theorem trace_of_decode_error {p : Command} {e : IllegalWord} (h : decode p = .error e) (c : Config) (s : State) :
    trace c p s = [] := by
  simp only [trace, h]

theorem trace_encode_init (c : Config) (key : Key) (frame : Frame) (s : State) :
    trace c (encode (.init key frame)) s = initTrace c key frame := by
  simp only [trace, decode_encode]

theorem trace_encode_gen (c : Config) (s : State) :
    trace c (encode .gen) s = if s.keyed then genTrace c s.cipher else [] := by
  simp only [trace, decode_encode]

/-- Settles O44, command by command: the trace is the loop whose result the command leaves, or it is empty. -/
theorem traceLengthAndLastElement : Obligations.TraceLengthAndLastElement := by
  intro p s
  cases hd : decode p with
  | error e =>
    rw [trace_of_decode_error hd]
    exact ⟨rfl, _, transact_error p s e hd, rfl⟩
  | ok i =>
    rw [transact_ok p s i hd, trace_of_decode_ok hd]
    cases i with
    | init key frame =>
      rw [trace_encode_init, getLast?_initTrace]
      exact ⟨length_initTrace .., _, exec_init .., by rw [runInit_eq]; rfl⟩
    | gen =>
      rw [trace_encode_gen]
      cases hk : s.keyed with
      | false => exact ⟨rfl, _, exec_gen _, by rw [runGen_notKeyed _ (s.sample p) hk]; rfl⟩
      | true =>
        rw [if_pos rfl, getLast?_genTrace, Option.getD_some]
        exact ⟨length_genTrace .., _, exec_gen _, runGen_cipher Config.build (s := s.sample p) hk⟩
    | nop => exact ⟨rfl, _, exec_nop _, rfl⟩
    | stepM => exact ⟨rfl, _, exec_stepM _, rfl⟩
    | stepF => exact ⟨rfl, _, exec_stepF _, rfl⟩

end Sys2Proof.Machine
end

