-- ==== Sys2Proof/Proofs/KeystreamGenerator.lean ====
section
/-! The Keystream Generator and the command GEN (43_keystream_generator R170 to R177): O17, O18 and O20. -/

namespace Sys2Proof.Machine

/-! ### One direction as a function of its starting CipherState -/

/-- The 114 output bits of one direction, each sampled before its majority step (R171). -/
def genKeystream (c : Config) (x : CipherState) : Keystream := bitsOf 114 fun i => outbit (majoritySteps c i x)

theorem getLsbD_genKeystream (c : Config) (x : CipherState) {i : Nat} (hi : i < 114) :
    (genKeystream c x).getLsbD i = outbit (majoritySteps c i x) := by
  rw [genKeystream, getLsbD_bitsOf, decide_eq_true hi, Bool.true_and]

/-- A direction overwrites all 114 bits of its buffer, so nothing of what the buffer held is left. -/
theorem genDirection_eq (c : Config) (buf : Keystream) (x : CipherState) :
    genDirection c buf x = (genKeystream c x, majoritySteps c 114 x) := by
  obtain ⟨hstate, hbits⟩ := iter_genCycle c 114 buf x
  refine Prod.ext (BitVec.eq_of_getLsbD_eq fun i hi => ?_) hstate
  rw [genDirection, hbits i hi, if_pos hi, getLsbD_genKeystream c x hi]

/-- Each field after a GEN with KEYED = 1: the uplink starts from the state the downlink ended in (R170, R173). -/
theorem runGen_eq (c : Config) {s : State} (h : s.keyed = true) :
    runGen c s =
      { s with cipher := majoritySteps c 228 s.cipher, ksDl := genKeystream c s.cipher
               ksUl := genKeystream c (majoritySteps c 114 s.cipher), keyed := false, done := true, err := s.err
               errcode := .none, phase := .idle, cnt := 0#8, cmdL := 0#4 } := by
  rw [runGen_keyed c s h]
  simp only [genDirection_eq]
  rw [← majoritySteps_add]

/-- Settles O17: the fields are `runGen_eq`'s, and the uplink's bit i is 114 + i majority steps from the start. -/
theorem genEmitsBothKeystreams : Obligations.GenEmitsBothKeystreams := by
  refine ⟨fun _ _ => (decode_ok_iff_encode _ .gen).2 ⟨rfl, nofun⟩, fun s hk => ⟨_, exec_gen s, ?_⟩⟩
  rw [runGen_eq Config.build hk]
  refine ⟨fun i hi => ⟨getLsbD_genKeystream _ _ hi, ?_⟩, rfl, rfl, rfl, rfl, rfl, rfl⟩
  rw [majoritySteps_add]
  exact getLsbD_genKeystream _ _ hi

/-! ### The zero CipherState (R175) -/

@[simp] theorem outbit_zero : outbit .zero = false := by decide

@[simp] theorem majoritySteps_zero (c : Config) (n : Nat) : majoritySteps c n .zero = .zero :=
  majoritySteps_of_fixed (clockStep_zero c false) n

@[simp] theorem genKeystream_zero (c : Config) : genKeystream c .zero = 0#114 := by
  refine BitVec.eq_of_getLsbD_eq fun i hi => ?_
  rw [getLsbD_genKeystream c _ hi, majoritySteps_zero, outbit_zero, BitVec.getLsbD_zero]

/-- Settles O18: no majority step leaves the zero CipherState, and its output bit is 0. -/
theorem genFromZeroIsZero : Obligations.GenFromZeroIsZero := by
  refine ⟨fun _ => rfl, fun s hk hz => ⟨_, exec_gen s, ?_⟩⟩
  rw [runGen_eq Config.build hk]
  simp [hz]

/-! ### What GEN depends on (R176) -/

/-- Two configurations with the same taps and clock-control bits differ in LOAD_MODE at most. -/
theorem eq_with_loadMode {c c' : Config} (t1 : c.taps1 = c'.taps1) (t2 : c.taps2 = c'.taps2) (t3 : c.taps3 = c'.taps3)
    (b1 : c.clkbit1 = c'.clkbit1) (b2 : c.clkbit2 = c'.clkbit2) (b3 : c.clkbit3 = c'.clkbit3) :
    c' = { c with loadMode := c'.loadMode } := by
  rw [t1, t2, t3, b1, b2, b3]

/-- A micro-step of the Clock-Control Unit does not read LOAD_MODE. -/
theorem clockStep_with_loadMode (c : Config) (m : LoadMode) (x : CipherState) (f : Bool) :
    clockStep { c with loadMode := m } x f = clockStep c x f := rfl

@[simp] theorem majoritySteps_with_loadMode (c : Config) (m : LoadMode) (n : Nat) (x : CipherState) :
    majoritySteps { c with loadMode := m } n x = majoritySteps c n x :=
  iter_congr _ _ n 0 x fun _ y _ _ => clockStep_with_loadMode c m y false

@[simp] theorem genKeystream_with_loadMode (c : Config) (m : LoadMode) (x : CipherState) :
    genKeystream { c with loadMode := m } x = genKeystream c x := by
  simp only [genKeystream, majoritySteps_with_loadMode]

/-- Each field after INIT and then GEN: what the state held before is left in ERR and the host's list only. -/
theorem runGen_runInit (c : Config) (key : Key) (frame : Frame) (s : State) :
    runGen c (runInit c key frame s) =
      { s with cipher := majoritySteps c 228 (initCipher c key frame), ksDl := genKeystream c (initCipher c key frame)
               ksUl := genKeystream c (majoritySteps c 114 (initCipher c key frame)), keyed := false, done := true
               err := s.err, errcode := .none, phase := .idle, cnt := 0#8, keyL := key, frameL := frame
               cmdL := 0#4 } := by
  simp only [runInit_eq, runGen_eq]

/-- Settles O20: by `runGen_eq`, GEN reads nothing but the CipherState, which INIT loads from KEY and FRAME. -/
theorem sessionDependsOnlyOnKeyAndFrame : Obligations.SessionDependsOnlyOnKeyAndFrame := by
  refine ⟨fun key frame => ?_, fun s s' hk hk' hx => ?_, exec_gen, fun c c' s s' hk hk' hx t1 t2 t3 b1 b2 b3 => ?_⟩
  · refine ⟨genKeystream Config.build (initCipher Config.build key frame),
      genKeystream Config.build (majoritySteps Config.build 114 (initCipher Config.build key frame)),
      majoritySteps Config.build 228 (initCipher Config.build key frame),
      fun s => ⟨_, _, exec_init key frame s, exec_gen _, ?_⟩⟩
    rw [runGen_runInit]
    exact ⟨rfl, rfl, rfl, rfl, rfl, rfl⟩
  · refine ⟨_, _, exec_gen s, exec_gen s', ?_⟩
    rw [runGen_eq Config.build hk, runGen_eq Config.build hk', hx]
    exact ⟨rfl, rfl, rfl⟩
  · obtain ⟨m, rfl⟩ : ∃ m, c' = { c with loadMode := m } := ⟨_, eq_with_loadMode t1 t2 t3 b1 b2 b3⟩
    rw [runGen_eq c hk, runGen_eq _ hk', hx]
    simp

end Sys2Proof.Machine
end

