-- ==== Sys2Proof/Proofs/CommandInterface.lean ====
section
/-! The command interface in one transaction (44_command_interface R190 to R196): NOP (O24), the step of an offered
command (O28), and the accepting edge (O39). -/

namespace Sys2Proof.Machine

/-! ### NOP -/

/-- STATUS 0x2A is ERRCODE 2 with ERR and DONE set; NOP's completion leaves ERR and DONE of it. -/
theorem status_complete_none {s : State} (h : s.status = 0x2A#8) : (s.complete .none).status = 0x0A#8 := by
  obtain ⟨-, -, hkeyed, herr, -, -⟩ := status_fields s
  rw [h] at hkeyed herr
  simp only [State.status, State.complete_errcode, State.complete_err, State.complete_keyed, State.complete_done,
    State.busy_complete, errAfter_none, ← hkeyed, ← herr]
  decide

/-- Settles O24: NOP is the completion with no error. -/
theorem nopOnlyCompletes : Obligations.NopOnlyCompletes :=
  ⟨fun _ _ => (decode_ok_iff_encode _ .nop).2 ⟨rfl, nofun⟩, fun s => ⟨_, exec_nop s, rfl, rfl, rfl, errAfter_none s.err,
    rfl, rfl, rfl, rfl, status_complete_none⟩⟩

/-! ### A step that is offered a command -/

/-- An idle block that is offered a command runs it in one step (R190, R196). -/
theorem step_of_accepts {p : InPorts} {s : State} (ha : Accepts p s) {rest : List InPorts} (hi : s.inputs = p :: rest) :
    step s = transact p.offer { s with inputs := rest } := by
  obtain ⟨hr, hv, hb⟩ := ha
  simp [step, hostTransaction, hi, hr, hv, hb]

/-- Of the legal commands only a GEN with KEYED = 0 fails (R221). -/
theorem commandCode_eq_none_iff_of_decode {p : Command} {i : Instr} (h : decode p = .ok i) (keyed : Bool) :
    commandCode p.cmd keyed = .none ↔ ¬ (i = .gen ∧ keyed = false) := by
  obtain ⟨hcmd, -⟩ := (decode_ok_iff_encode p i).1 h
  rw [hcmd]
  cases i <;> cases keyed <;> simp [encode, commandCode, decodeWord, reservedField, forceField, opField]

/-- Settles O28: the step samples the ports, which leaves the latches exactly when the command is a GEN that fails. -/
theorem stepRunsTheDecodedCommand : Obligations.StepRunsTheDecodedCommand := by
  intro s p rest i hi hr hb hv hd
  rw [step_of_accepts ⟨hr, hv, hb⟩ hi, transact_ok _ _ i hd]
  simp only [State.sample, commandCode_eq_none_iff_of_decode hd, ite_not]

/-! ### The accepting edge (R190, R153) -/

theorem clockEdge_of_accepts {p : InPorts} {s : State} (h : Accepts p s) (c : Config) :
    clockEdge c p s = acceptEdge p.offer s := by
  obtain ⟨hr, hv, hb⟩ := h
  simp [clockEdge, hr, hv, hb]

@[simp] theorem acceptEdge_done (p : Command) (s : State) : (acceptEdge p s).done = false := rfl

@[simp] theorem acceptEdge_err (p : Command) (s : State) : (acceptEdge p s).err = s.err := by
  rw [acceptEdge_eq]; split <;> rfl

@[simp] theorem acceptEdge_errcode (p : Command) (s : State) : (acceptEdge p s).errcode = s.errcode := by
  rw [acceptEdge_eq]; split <;> rfl

@[simp] theorem acceptEdge_keyL (p : Command) (s : State) : (acceptEdge p s).keyL = (s.sample p).keyL := by
  rw [acceptEdge_eq]; split <;> rfl

@[simp] theorem acceptEdge_frameL (p : Command) (s : State) : (acceptEdge p s).frameL = (s.sample p).frameL := by
  rw [acceptEdge_eq]; split <;> rfl

/-- The commands that succeed, word by word. -/
theorem commandCode_eq_none_iff_word (w : CmdWord) (keyed : Bool) :
    commandCode w keyed = .none ↔ w ∈ [0x0#4, 0x1#4, 0x3#4, 0x7#4] ∨ (w = 0x2#4 ∧ keyed = true) :=
  forall_cmdWord (fun w => commandCode w keyed = .none ↔ w ∈ [0x0#4, 0x1#4, 0x3#4, 0x7#4] ∨ (w = 0x2#4 ∧ keyed = true))
    (by revert keyed; decide) w

/-- The commands that fail, word by word: the others. -/
theorem commandCode_ne_none_iff_word (w : CmdWord) (keyed : Bool) :
    commandCode w keyed ≠ .none ↔
      w ∈ [0x4#4, 0x5#4, 0x6#4, 0x8#4, 0x9#4, 0xA#4, 0xB#4, 0xC#4, 0xD#4, 0xE#4, 0xF#4] ∨ (w = 0x2#4 ∧ keyed = false) :=
  forall_cmdWord (fun w => commandCode w keyed ≠ .none ↔
    w ∈ [0x4#4, 0x5#4, 0x6#4, 0x8#4, 0x9#4, 0xA#4, 0xB#4, 0xC#4, 0xD#4, 0xE#4, 0xF#4] ∨ (w = 0x2#4 ∧ keyed = false))
    (by revert keyed; decide) w

/-- Settles O39: the latches follow the code the command will end with, and what INIT clears follows its word. -/
theorem acceptingEdgeSamplesPorts : Obligations.AcceptingEdgeSamplesPorts := by
  intro c p s ha
  rw [clockEdge_of_accepts ha]
  refine ⟨acceptEdge_busy _ s, rfl, acceptEdge_err _ s, acceptEdge_errcode _ s, fun hw => ?_, fun hw => ?_,
    fun hw => ?_, fun hw => ?_⟩
  · have hcode := (commandCode_eq_none_iff_word p.offer.cmd s.keyed).2 hw
    simp [hcode]
  · have hcode := (commandCode_ne_none_iff_word p.offer.cmd s.keyed).2 hw
    simp [hcode]
  · simp [hw]
  · simp [hw]

end Sys2Proof.Machine
end

