-- ==== Sys2Proof/Proofs/BusyBlock.lean ====
section
/-! A busy block at its clock edges (44_command_interface R191, R192): its ports have no effect (O40), and a run of its
edges as a relation. -/

namespace Sys2Proof.Machine

/-! ### A busy block and its ports -/

/-- An edge of a busy block reads no port but rst (R191). -/
theorem clockEdge_of_busy {s : State} (hb : s.busy = true) {p : InPorts} (hr : p.rst = false) (c : Config) :
    clockEdge c p s = busyEdge c s := by
  simp [clockEdge, hr, hb]

theorem clockEdge_of_rst {p : InPorts} (hr : p.rst = true) (c : Config) (s : State) :
    clockEdge c p s = s.resetBlock := by
  simp [clockEdge, hr]

@[simp] theorem phaseEnd_keyL (c : Config) (s : State) : (s.phaseEnd c).keyL = s.keyL := by
  unfold State.phaseEnd; cases s.phase <;> cases c.loadMode <;> rfl

@[simp] theorem phaseEnd_frameL (c : Config) (s : State) : (s.phaseEnd c).frameL = s.frameL := by
  unfold State.phaseEnd; cases s.phase <;> cases c.loadMode <;> rfl

@[simp] theorem busyEdge_keyL (c : Config) (s : State) : (busyEdge c s).keyL = s.keyL := by
  unfold busyEdge; split <;> simp

@[simp] theorem busyEdge_frameL (c : Config) (s : State) : (busyEdge c s).frameL = s.frameL := by
  unfold busyEdge; split <;> simp

theorem runEdges_cons (c : Config) (p : InPorts) (ports : List InPorts) (s : State) :
    runEdges c (p :: ports) s = runEdges c ports (clockEdge c p s) := rfl

/-- Two runs whose ports differ, none of them a reset, agree as long as the block is busy before each edge. -/
theorem runEdges_congr_of_busy (c : Config) {ps qs : List InPorts} {s : State} (hlen : ps.length = qs.length)
    (hps : ∀ p ∈ ps, p.rst = false) (hqs : ∀ q ∈ qs, q.rst = false)
    (hbusy : ∀ n, n < ps.length → (runEdges c (ps.take n) s).busy = true) : runEdges c ps s = runEdges c qs s := by
  induction ps generalizing qs s with
  | nil => rw [List.eq_nil_of_length_eq_zero hlen.symm]
  | cons p ps ih =>
    obtain _ | ⟨q, qs⟩ := qs
    · simp at hlen
    have hb : s.busy = true := hbusy 0 (by simp)
    obtain ⟨hp, hps⟩ := List.forall_mem_cons.1 hps
    obtain ⟨hq, hqs⟩ := List.forall_mem_cons.1 hqs
    have hedge : clockEdge c q s = clockEdge c p s := by rw [clockEdge_of_busy hb hp, clockEdge_of_busy hb hq]
    rw [runEdges_cons, runEdges_cons, hedge]
    exact ih (by simpa using hlen) hps hqs fun n hn => hbusy (n + 1) (by simpa using hn)

/-- Settles O40: an edge of a busy block is a reset or `busyEdge`, which takes no ports. -/
theorem busyBlockIgnoresPorts : Obligations.BusyBlockIgnoresPorts := by
  refine ⟨fun c p q s hb hpq => ?_, fun c p s hb hr => ?_, fun c ps qs s => runEdges_congr_of_busy c⟩
  · cases hr : p.rst with
    | true => rw [clockEdge_of_rst hr, clockEdge_of_rst (hpq ▸ hr)]
    | false => rw [clockEdge_of_busy hb hr, clockEdge_of_busy hb (hpq ▸ hr)]
  · rw [clockEdge_of_busy hb hr]
    exact ⟨busyEdge_keyL c s, busyEdge_frameL c s⟩

/-! ### A run of busy edges and the CipherStates it shows -/

/-- `Runs c s l t`: the block is busy from `s` up to `t`, where it takes an edge for each element of `l`, and after each
edge the registers hold that element. -/
inductive Runs (c : Config) : State → List CipherState → State → Prop
  | refl (s : State) : Runs c s [] s
  | edge {s t : State} {l : List CipherState} (busy : s.busy = true) (rest : Runs c (busyEdge c s) l t) :
      Runs c s ((busyEdge c s).cipher :: l) t

theorem Runs.append {c : Config} {s t u : State} {l m : List CipherState} (h : Runs c s l t) (h' : Runs c t m u) :
    Runs c s (l ++ m) u := by
  induction h with
  | refl => exact h'
  | edge hb _ ih => exact .edge hb (ih h')

/-- A run is what the clock edges do, whatever the ports hold, reset aside. -/
theorem Runs.runEdges_eq {c : Config} {s t : State} {l : List CipherState} (h : Runs c s l t) {ports : List InPorts}
    (hlen : ports.length = l.length) (hr : ∀ q ∈ ports, q.rst = false) : runEdges c ports s = t := by
  induction h generalizing ports with
  | refl => rw [List.eq_nil_of_length_eq_zero hlen]; rfl
  | edge hb _ ih =>
    obtain _ | ⟨p, ports⟩ := ports
    · simp at hlen
    obtain ⟨hp, hr⟩ := List.forall_mem_cons.1 hr
    rw [runEdges_cons, clockEdge_of_busy hb hp]
    exact ih (by simpa using hlen) hr

/-- A run cut in two. -/
theorem Runs.split {c : Config} {s t : State} {l : List CipherState} (h : Runs c s l t) (n : Nat) :
    ∃ u, Runs c s (l.take n) u ∧ Runs c u (l.drop n) t := by
  induction h generalizing n with
  | refl s => exact ⟨s, by simpa using .refl s, by simpa using .refl s⟩
  | @edge s t l hb h ih =>
    cases n with
    | zero => exact ⟨s, .refl s, .edge hb h⟩
    | succ n =>
      obtain ⟨u, hu, hut⟩ := ih n
      exact ⟨u, .edge hb hu, hut⟩

/-- A run of at least one edge starts from a busy block. -/
theorem Runs.busy_of_length_pos {c : Config} {s t : State} {l : List CipherState} (h : Runs c s l t)
    (hl : 0 < l.length) : s.busy = true := by
  cases h with
  | refl => simp at hl
  | edge hb => exact hb

/-- The state after some edges of a run lies on it. -/
theorem Runs.split_runEdges {c : Config} {s t : State} {l : List CipherState} (h : Runs c s l t) {ports : List InPorts}
    (hle : ports.length ≤ l.length) (hr : ∀ q ∈ ports, q.rst = false) :
    Runs c s (l.take ports.length) (runEdges c ports s) ∧ Runs c (runEdges c ports s) (l.drop ports.length) t := by
  obtain ⟨u, hu, hrest⟩ := h.split ports.length
  rw [hu.runEdges_eq (List.length_take_of_le hle).symm hr]
  exact ⟨hu, hrest⟩

/-- The last CipherState a run shows is the one it ends with. -/
theorem Runs.getElem?_last {c : Config} {s t : State} {l : List CipherState} (h : Runs c s l t) {j : Nat}
    (hlen : l.length = j + 1) : l[j]? = some t.cipher := by
  induction h generalizing j with
  | refl => simp at hlen
  | edge _ h ih =>
    cases j with
    | zero =>
      cases h with
      | refl => rfl
      | edge => simp at hlen
    | succ j => exact ih (by simpa using hlen)

/-- A command that goes on running leaves DONE. -/
theorem busyEdge_done_of_busy {c : Config} {s : State} (hb : s.busy = true) (h : (busyEdge c s).busy = true) :
    (busyEdge c s).done = s.done := by
  obtain ⟨-, e⟩ | ⟨-, hend⟩ := busyEdge_inv c s hb
  · simp [e]
  rcases hend with ⟨-, -, e⟩ | ⟨-, e⟩ | ⟨-, e⟩ | ⟨-, e⟩ | ⟨-, e⟩ | ⟨-, e⟩ | ⟨-, e⟩ <;> rw [e] at h ⊢ <;> simp at h ⊢

/-- A run that ends in a busy state has started from one, and leaves DONE. -/
theorem Runs.done_of_busy {c : Config} {s t : State} {l : List CipherState} (h : Runs c s l t) (ht : t.busy = true) :
    s.busy = true ∧ t.done = s.done := by
  induction h with
  | refl => exact ⟨ht, rfl⟩
  | edge hb _ ih =>
    obtain ⟨hb', hdone⟩ := ih ht
    exact ⟨hb, hdone.trans (busyEdge_done_of_busy hb hb')⟩

end Sys2Proof.Machine
end

