-- ==== Sys2Proof/Proofs/PhaseRuns.lean ====
section
/-! The phases of a command (70_reset_and_hazards R262): the edges of each are its micro-steps, and the phases of INIT
and GEN one after another are their traces (44_command_interface R197). -/

namespace Sys2Proof.Machine

/-! ### The loops of the trace -/

/-- A trace cut in two. -/
theorem scan_add {α : Type} (f : Nat → α → α) (m n i : Nat) (a : α) :
    scan f (m + n) i a = scan f m i a ++ scan f n (i + m) (iter f m i a) := by
  induction m generalizing i a with
  | zero => rw [Nat.zero_add]; rfl
  | succ m ih =>
    rw [Nat.add_right_comm, scan, ih, Nat.add_right_comm i 1 m]
    rfl

/-- A loop whose body does not read its index may start at any. -/
theorem scan_const {α : Type} (f : α → α) (n i j : Nat) (a : α) :
    scan (fun _ => f) n i a = scan (fun _ => f) n j a := by
  induction n generalizing i j a with
  | zero => rfl
  | succ n ih => rw [scan, scan, ih (i + 1) (j + 1)]

/-! ### The micro-steps of one phase -/

/-- The micro-step with index i of the current phase, on the registers alone (R262). -/
def State.phaseStep (c : Config) (s : State) : Nat → CipherState → CipherState :=
  match s.phase with
  | .idle | .unit => fun _ x => x
  | .keyload => keyloadStep c s.keyL
  | .frame => frameMixStep c s.frameL
  | .discard => fun _ x => clockStep c x true
  | .genDl | .genUl => fun _ x => clockStep c x false
  | .step => fun _ x => clockStep c x (forceField s.cmdL)

/-- A buffer after `n` generation cycles with indexes from i on, if the current phase is the one that writes it. -/
def State.bufferAfter (c : Config) (n i : Nat) (s : State) (writer : Phase) (buf : Keystream) : Keystream :=
  if s.phase = writer then (iter (genCycle c) n i (buf, s.cipher)).1 else buf

/-- `n` micro-steps of the current phase, with indexes from i on (R262). -/
def State.microSteps (c : Config) (n i : Nat) (s : State) : State :=
  { s with cipher := iter (s.phaseStep c) n i s.cipher
           ksDl := s.bufferAfter c n i .genDl s.ksDl
           ksUl := s.bufferAfter c n i .genUl s.ksUl }

theorem microSteps_one (c : Config) (s : State) : s.microSteps c 1 s.cnt.toNat = s.microStep c := by
  obtain ⟨_, _, _, _, _, _, _, phase, _, _, _, _, _⟩ := s
  cases phase <;> rfl

theorem microStep_cipher (c : Config) (s : State) :
    (s.microStep c).cipher = s.phaseStep c s.cnt.toNat s.cipher := by
  rw [← microSteps_one]; rfl

theorem phaseStep_congr (c : Config) {s t : State} (hp : t.phase = s.phase) (hk : t.keyL = s.keyL)
    (hf : t.frameL = s.frameL) (hc : t.cmdL = s.cmdL) : t.phaseStep c = s.phaseStep c := by
  simp only [State.phaseStep, hp, hk, hf, hc]

/-- The state inside a phase after an edge: one micro-step, and CNT counts on. -/
def State.countOn (c : Config) (s : State) : State := { s.microStep c with cnt := s.cnt + 1#8 }

theorem phaseStep_countOn (c : Config) (s : State) : (s.countOn c).phaseStep c = s.phaseStep c :=
  phaseStep_congr c (microStep_phase c s) (microStep_keyL c s) (microStep_frameL c s) (microStep_cmdL c s)

/-- The first of n + 1 micro-steps is the edge's. -/
theorem microSteps_countOn (c : Config) (s : State) (n : Nat) :
    (s.countOn c).microSteps c n (s.cnt.toNat + 1) =
      { s.microSteps c (n + 1) s.cnt.toNat with cnt := s.cnt + 1#8 } := by
  obtain ⟨_, _, _, _, _, _, _, phase, _, _, _, _, _⟩ := s
  cases phase <;> rfl

/-- The end of a phase sets CNT to 0, so what CNT held does not matter. -/
theorem phaseEnd_with_cnt (c : Config) {s : State} (hb : s.busy = true) (k : BitVec 8) :
    { s with cnt := k }.phaseEnd c = s.phaseEnd c := by
  rw [State.busy_eq_true_iff] at hb
  unfold State.phaseEnd
  cases hp : s.phase with
  | idle => exact absurd hp hb
  | keyload => cases c.loadMode <;> rfl
  | _ => rfl

/-- From CNT on, the edges of a phase are its micro-steps, and the last of them ends it. -/
theorem runs_microSteps {c : Config} (n : Nat) {s : State} (hb : s.busy = true)
    (hcount : s.cnt.toNat + (n + 1) = phaseCount c s.phase) :
    Runs c s (scan (s.phaseStep c) (n + 1) s.cnt.toNat s.cipher)
      ((s.microSteps c (n + 1) s.cnt.toNat).phaseEnd c) := by
  induction n generalizing s with
  | zero =>
    have hedge : busyEdge c s = (s.microStep c).phaseEnd c := if_neg (by omega)
    rw [microSteps_one, ← hedge, scan, scan, ← microStep_cipher, ← busyEdge_cipher]
    exact .edge hb (.refl _)
  | succ n ih =>
    have hlt : s.cnt.toNat + 1 < phaseCount c s.phase := by omega
    have hedge : busyEdge c s = s.countOn c := if_pos hlt
    have hphase : (s.countOn c).phase = s.phase := microStep_phase c s
    have hcnt : (s.countOn c).cnt.toNat = s.cnt.toNat + 1 := toNat_cnt_add_one hlt
    have hb' : (s.countOn c).busy = true := by rwa [State.busy, hphase]
    have hrest := ih hb' (by rw [hphase, hcnt]; omega)
    rw [hcnt, phaseStep_countOn, microSteps_countOn, phaseEnd_with_cnt c (s := s.microSteps c _ _) hb] at hrest
    rw [← hedge] at hrest
    rw [scan, ← microStep_cipher, ← busyEdge_cipher]
    exact .edge hb hrest

theorem phaseCount_pos (c : Config) {ph : Phase} (h : ph ≠ .idle) : 0 < phaseCount c ph := by
  cases ph <;> cases hm : c.loadMode <;> simp [phaseCount, keyloadCount, hm] at h ⊢

/-- A whole phase: as many micro-steps as it has edges. -/
theorem runs_phase {c : Config} {s : State} {ph : Phase} (hp : s.phase = ph) (hne : ph ≠ .idle) (h0 : s.cnt = 0#8) :
    Runs c s (scan (s.phaseStep c) (phaseCount c ph) 0 s.cipher) ((s.microSteps c (phaseCount c ph) 0).phaseEnd c) := by
  obtain ⟨n, hn⟩ := Nat.exists_eq_add_one.2 (phaseCount_pos c hne)
  have hcnt : s.cnt.toNat = 0 := congrArg BitVec.toNat h0
  have h := runs_microSteps (c := c) n (s.busy_eq_true_iff.2 (hp ▸ hne)) (by rw [hcnt, Nat.zero_add, hp, hn])
  rwa [hcnt, ← hn] at h

/-! ### The phases of a command -/

/-- The phase DISCARD completes INIT (R147). -/
theorem runs_discard {c : Config} {s : State} (hp : s.phase = .discard) (h0 : s.cnt = 0#8) :
    Runs c s (scan (fun _ x => clockStep c x true) 100 0 s.cipher)
      { s with cipher := discardPhase c s.cipher }.finishInit := by
  have h := runs_phase (c := c) hp (by decide) h0
  simpa [hp, State.phaseStep, phaseCount, State.microSteps, State.bufferAfter, State.phaseEnd, discardPhase] using h

/-- The phases FRAME and DISCARD (R146, R147). -/
theorem runs_frame {c : Config} {s : State} (hp : s.phase = .frame) (h0 : s.cnt = 0#8) :
    Runs c s (scan (frameMixStep c s.frameL) 22 0 s.cipher ++
        scan (fun _ x => clockStep c x true) 100 0 (frameMix c s.frameL s.cipher))
      { s with cipher := discardPhase c (frameMix c s.frameL s.cipher) }.finishInit := by
  have hframe : Runs c s (scan (frameMixStep c s.frameL) 22 0 s.cipher)
      ({ s with cipher := frameMix c s.frameL s.cipher }.enter .discard) := by
    have h := runs_phase (c := c) hp (by decide) h0
    simpa [hp, State.phaseStep, phaseCount, State.microSteps, State.bufferAfter, State.phaseEnd, frameMix] using h
  exact hframe.append (runs_discard rfl rfl)

theorem keyloadStep_artifact {c : Config} (h : c.loadMode = .artifact) : keyloadStep c = artifactKeyStep := by
  funext key i x; simp only [keyloadStep, h]

theorem keyloadStep_intended {c : Config} (h : c.loadMode = .intended) : keyloadStep c = intendedKeyStep := by
  funext key i x; simp only [keyloadStep, h]

/-- The phases of INIT, from the zeroed registers, in each mode (R141, R262). -/
theorem runs_init {c : Config} {s : State} (hp : s.phase = .keyload) (h0 : s.cnt = 0#8) (hz : s.cipher = .zero) :
    Runs c s (initTrace c s.keyL s.frameL) { s with cipher := initCipher c s.keyL s.frameL }.finishInit := by
  have h := runs_phase (c := c) hp (by decide) h0
  unfold initTrace initCipher
  cases hm : c.loadMode with
  | artifact =>
    simpa [hp, hz, hm, State.phaseStep, phaseCount, keyloadCount, keyloadStep_artifact hm, State.microSteps,
      State.bufferAfter, State.phaseEnd, keyloadArtifact] using h
  | intended =>
    have hkey : Runs c s (scan (intendedKeyStep s.keyL) 23 0 .zero)
        ({ s with cipher := keyloadIntended s.keyL }.enter .frame) := by
      simpa [hp, hz, hm, State.phaseStep, phaseCount, keyloadCount, keyloadStep_intended hm, State.microSteps,
        State.bufferAfter, State.phaseEnd, keyloadIntended] using h
    rw [List.append_assoc]
    exact hkey.append (runs_frame rfl rfl)

/-- A whole direction overwrites its buffer. -/
theorem iter_genCycle_buffer (c : Config) (buf : Keystream) (x : CipherState) :
    (iter (genCycle c) 114 0 (buf, x)).1 = genKeystream c x :=
  congrArg Prod.fst (genDirection_eq c buf x)

/-- The phase GEN_UL completes GEN (R173). -/
theorem runs_genUl {c : Config} {s : State} (hp : s.phase = .genUl) (h0 : s.cnt = 0#8) :
    Runs c s (scan (fun _ x => clockStep c x false) 114 0 s.cipher)
      { s with cipher := majoritySteps c 114 s.cipher, ksUl := genKeystream c s.cipher }.finishGen := by
  have h := runs_phase (c := c) hp (by decide) h0
  simpa [hp, State.phaseStep, phaseCount, State.microSteps, State.bufferAfter, State.phaseEnd, majoritySteps,
    iter_genCycle_buffer] using h

/-- The phases of GEN (R170, R173). -/
theorem runs_gen {c : Config} {s : State} (hp : s.phase = .genDl) (h0 : s.cnt = 0#8) (hk : s.keyed = true) :
    Runs c s (genTrace c s.cipher) (runGen c s) := by
  have hdl : Runs c s (scan (fun _ x => clockStep c x false) 114 0 s.cipher)
      ({ s with cipher := majoritySteps c 114 s.cipher, ksDl := genKeystream c s.cipher }.enter .genUl) := by
    have h := runs_phase (c := c) hp (by decide) h0
    simpa [hp, State.phaseStep, phaseCount, State.microSteps, State.bufferAfter, State.phaseEnd, majoritySteps,
      iter_genCycle_buffer] using h
  have htrace : genTrace c s.cipher = scan (fun _ x => clockStep c x false) 114 0 s.cipher ++
      scan (fun _ x => clockStep c x false) 114 0 (majoritySteps c 114 s.cipher) := by
    rw [genTrace, scan_add _ 114 114, scan_const _ 114 (0 + 114) 0]
    rfl
  rw [htrace, runGen, if_pos hk]
  simp only [genDirection_eq]
  exact hdl.append (runs_genUl rfl rfl)

/-- The one edge of the phase STEP. -/
theorem runs_step {c : Config} {s : State} (hp : s.phase = .step) (h0 : s.cnt = 0#8) :
    Runs c s [clockStep c s.cipher (forceField s.cmdL)] (runStepCommand c (forceField s.cmdL) s) := by
  have h := runs_phase (c := c) hp (by decide) h0
  simpa [hp, State.phaseStep, phaseCount, State.microSteps, State.bufferAfter, State.phaseEnd, runStepCommand, scan,
    iter_succ] using h

/-- The one edge of the phase UNIT, which has no micro-step. -/
theorem runs_unit {c : Config} {s : State} (hp : s.phase = .unit) :
    Runs c s [s.cipher] (s.complete (commandCode s.cmdL s.keyed)) := by
  have h := Runs.edge (c := c) (s.busy_eq_true_iff.2 (by simp [hp])) (.refl _)
  rwa [busyEdge_unit c hp] at h

end Sys2Proof.Machine
end

