-- ==== Sys2Proof/Proofs/CompletionEdge.lean ====
section
/-! A whole command at its clock edges (44_command_interface R192, R196, R197; 70_reset_and_hazards R262): the
completion edge (O46) and the snapshot outputs (O45). -/

namespace Sys2Proof.Machine

/-! ### The accepting edge, whole -/

/-- An accepted INIT latches its operands and zeroes what INIT loads (R141, R153, R190). -/
theorem acceptEdge_of_init {p : Command} (h : p.cmd = 0x1#4) (s : State) :
    acceptEdge p s =
      { s.beginInit with phase := .keyload, cnt := 0#8, done := false, cmdL := p.cmd, keyL := p.key
                         frameL := p.frame } := by
  rw [acceptEdge_eq, if_pos ((decodeWord_init_iff p.cmd).2 h), State.sample_of_succeeds s p (by rw [h]; rfl), h]
  rfl

/-- Every other accepted command only samples the ports (R190). -/
theorem acceptEdge_of_ne_init {p : Command} (h : p.cmd ≠ 0x1#4) (s : State) :
    acceptEdge p s = { s.sample p with phase := firstPhase p.cmd s.keyed, cnt := 0#8, done := false } := by
  rw [acceptEdge_eq, if_neg (mt (decodeWord_init_iff p.cmd).1 h)]

/-! ### The run of a command -/

/-- A command whose only edge is spent in UNIT shows the CipherState it found, and completes with its code. -/
theorem runs_acceptEdge_unit (c : Config) {p : Command} {s : State} (hu : firstPhase p.cmd s.keyed = .unit) :
    Runs c (acceptEdge p s) [s.cipher] ((s.sample p).complete (commandCode p.cmd s.keyed)) := by
  have hne : p.cmd ≠ 0x1#4 := fun h => by rw [h] at hu; cases hu
  have h := runs_unit (c := c) (s := acceptEdge p s) hu
  rw [acceptEdge_of_ne_init hne] at h ⊢
  exact h

/-- R197: the operands of INIT's trace are the latched ones (R32). -/
theorem runs_acceptEdge_init (c : Config) {p : Command} (hw : p.cmd = 0x1#4) (s : State) :
    Runs c (acceptEdge p s) (initTrace c p.key p.frame) (runInit c p.key p.frame (s.sample p)) := by
  rw [acceptEdge_of_init hw]
  exact runs_init rfl rfl rfl

/-- Only a GEN with KEYED = 1 has a trace (R223). -/
theorem runs_acceptEdge_gen (c : Config) {p : Command} {s : State} (hw : p.cmd = 0x2#4) (hk : s.keyed = true) :
    Runs c (acceptEdge p s) (genTrace c s.cipher) (runGen c (s.sample p)) := by
  have hphase : firstPhase p.cmd s.keyed = .genDl := by rw [hw, hk]; rfl
  have hrun : runGen c (acceptEdge p s) = runGen c (s.sample p) := by
    rw [acceptEdge_of_ne_init (by rw [hw]; decide)]
    refine (runGen_eq c ?_).trans (runGen_eq c (s := s.sample p) hk).symm
    exact hk
  have h := runs_gen (c := c) (s := acceptEdge p s) hphase rfl (by simp [hw, hk])
  rwa [hrun, acceptEdge_cipher, if_neg (by rw [hw]; decide)] at h

/-- STEP has one micro-step, its forceAll read from the sampled word (R72). -/
theorem runs_acceptEdge_step (c : Config) {p : Command} {f : Bool} (hw : decodeWord p.cmd = .ok (.step f)) (s : State) :
    Runs c (acceptEdge p s) [clockStep c s.cipher f] (runStepCommand c f (s.sample p)) := by
  have hne : p.cmd ≠ 0x1#4 := fun h => by rw [(decodeWord_init_iff p.cmd).2 h] at hw; cases hw
  have hphase : firstPhase p.cmd s.keyed = .step := by simp only [firstPhase, hw]
  obtain rfl := decodeWord_step_force p.cmd f hw
  rw [acceptEdge_of_ne_init hne]
  exact runs_step hphase rfl

/-- What the snapshot outputs show at the edges of a command: its trace, or, where it has no micro-step, the
CipherState it found (R197). -/
def shownCiphers (c : Config) (p : Command) (s : State) : List CipherState :=
  if trace c p s = [] then [s.cipher] else trace c p s

theorem length_shownCiphers (c : Config) (p : Command) (s : State) :
    (shownCiphers c p s).length = max (trace c p s).length 1 := by
  unfold shownCiphers
  split
  next h => simp [h]
  next h => exact (Nat.max_eq_left (List.length_pos_iff.2 h)).symm

theorem shownCiphers_of_trace {c : Config} {p : Command} {s : State} (h : 0 < (trace c p s).length) :
    shownCiphers c p s = trace c p s :=
  if_neg (List.length_pos_iff.1 h)

/-- R196, R262: the edges of an accepted command show its trace and end in the state of the transaction. -/
theorem runs_command (c : Config) (p : Command) (s : State) :
    Runs c (acceptEdge p s) (shownCiphers c p s) (runCommand c p s) := by
  cases hd : decode p with
  | error e =>
    have hw := (decode_error_iff p e).1 hd
    have h := runs_acceptEdge_unit c (p := p) (s := s) (by simp only [firstPhase, hw])
    simpa [shownCiphers, trace, runCommand, runIllegal, hd, commandCode, hw] using h
  | ok i =>
    obtain ⟨hcmd, hops⟩ := (decode_ok_iff_encode p i).1 hd
    cases i with
    | nop =>
      have h := runs_acceptEdge_unit c (p := p) (s := s) (by rw [hcmd]; rfl)
      have hcode : commandCode p.cmd s.keyed = .none := by rw [hcmd]; rfl
      simpa [shownCiphers, trace, runCommand, hd, hcode] using h
    | init key frame =>
      obtain ⟨rfl, rfl⟩ := hops key frame rfl
      have htrace : initTrace c p.key p.frame ≠ [] := by
        rw [← List.length_pos_iff, length_initTrace]; cases c.loadMode <;> decide
      simpa [shownCiphers, trace, runCommand, hd, htrace] using runs_acceptEdge_init c hcmd s
    | gen =>
      cases hk : s.keyed with
      | false =>
        have h := runs_acceptEdge_unit c (p := p) (s := s) (by rw [hcmd, hk]; rfl)
        have hcode : commandCode p.cmd false = .notKeyed := by rw [hcmd]; rfl
        simpa [shownCiphers, trace, runCommand, runGen, hd, hk, hcode] using h
      | true =>
        have htrace : genTrace c s.cipher ≠ [] := by rw [← List.length_pos_iff, length_genTrace]; decide
        simpa [shownCiphers, trace, runCommand, hd, hk, htrace] using runs_acceptEdge_gen c hcmd hk
    | stepM =>
      simpa [shownCiphers, trace, runCommand, hd] using
        runs_acceptEdge_step c ((decodeWord_opOf_iff p.cmd .stepM).2 hcmd) s
    | stepF =>
      simpa [shownCiphers, trace, runCommand, hd] using
        runs_acceptEdge_step c ((decodeWord_opOf_iff p.cmd .stepF).2 hcmd) s

/-- L of R262 is max(N, 1), N the length of the trace. -/
theorem commandCycles_eq (c : Config) (p : Command) (s : State) :
    commandCycles c p.cmd s.keyed = max (trace c p s).length 1 := by
  cases hd : decode p with
  | error e =>
    have hw := (decode_error_iff p e).1 hd
    simp [commandCycles, hw, trace, hd]
  | ok i =>
    have hw := (decodeWord_opOf_iff p.cmd i).2 ((decode_ok_iff_encode p i).1 hd).1
    cases i with
    | init key frame =>
      cases hm : c.loadMode <;> simp [commandCycles, hw, opOf, trace, hd, length_initTrace, hm]
    | gen => cases hk : s.keyed <;> simp [commandCycles, hw, opOf, trace, hd, length_genTrace, hk]
    | nop | stepM | stepF => simp [commandCycles, hw, opOf, trace, hd]

/-- An accepted command and then the edges of its schedule. -/
theorem runEdges_of_accepts {c : Config} {p : InPorts} {s : State} (ha : Accepts p s) (later : List InPorts) :
    runEdges c (p :: later) s = runEdges c later (acceptEdge p.offer s) := by
  rw [runEdges_cons, clockEdge_of_accepts ha]

/-- Under the block's own configuration the transaction answers R196's command. -/
theorem transact_eq_runCommand (p : Command) (s : State) : transact p s = .next (runCommand Config.build p s) := by
  cases hd : decode p with
  | error e => simp only [transact, runCommand, hd]
  | ok i => cases i <;> simp only [transact, runCommand, hd] <;> rfl

/-- Settles O46: the edges of the schedule are the run of the command. -/
theorem transactionIsItsClockEdges : Obligations.TransactionIsItsClockEdges := by
  refine ⟨fun c p s later ha hr hlen => ?_, fun p s rest ha => ?_⟩
  · rw [commandCycles_eq, ← length_shownCiphers] at hlen
    rw [runEdges_of_accepts ha, (runs_command c p.offer s).runEdges_eq hlen hr]
  · rw [step_of_accepts (s := { s with inputs := p :: rest }) ha rfl, transact_eq_runCommand]

/-- Every command ends with BUSY = 0 and DONE = 1 (R192). -/
theorem runCommand_completes (c : Config) (p : Command) (s : State) :
    (runCommand c p s).busy = false ∧ (runCommand c p s).done = true := by
  cases hd : decode p with
  | error e => simp only [runCommand, hd]; exact ⟨rfl, rfl⟩
  | ok i =>
    cases i with
    | gen => simp only [runCommand, hd, runGen]; split <;> exact ⟨rfl, rfl⟩
    | nop | init | stepM | stepF => simp only [runCommand, hd]; exact ⟨rfl, rfl⟩

/-- Settles O45: the run of the command, cut at the edge in question. -/
theorem snapshotsShowTheTrace : Obligations.SnapshotsShowTheTrace := by
  intro c p s later ha hr
  have hrun := runs_command c p.offer s
  rw [runEdges_of_accepts ha, ← length_shownCiphers]
  refine ⟨fun j hj htrace => ?_, fun hlt => ?_, fun hlen => ?_⟩
  · rw [shownCiphers_of_trace (by omega)] at hrun
    have hlast := (hrun.split_runEdges (by omega) hr).1.getElem?_last (j := j) (by rw [List.length_take]; omega)
    rwa [List.getElem?_take_of_lt (by omega)] at hlast
  · obtain ⟨hbefore, hafter⟩ := hrun.split_runEdges hlt.le hr
    have hb := hafter.busy_of_length_pos (by rw [List.length_drop]; omega)
    exact ⟨hb, (hbefore.done_of_busy hb).2⟩
  · rw [hrun.runEdges_eq hlen hr]
    exact runCommand_completes c p.offer s

end Sys2Proof.Machine
end

