-- ==== Sys2Proof/Proofs/ErrorFlags.lean ====
section
/-! The error path and the flags (60_exceptions R220 to R236): ERR and ERRCODE (O36), DONE (O43), and the commands that
fail (O19, O29, O50); and the steps that are offered no command (O30). -/

namespace Sys2Proof.Machine

/-! ### The flags at a clock edge -/

/-- An edge of a running command leaves DONE, ERRCODE and ERR while the command goes on; the edge that ends it sets DONE
and the code, and ERR from the code (R192). -/
theorem busyEdge_flags_cases (c : Config) {s : State} (hb : s.busy = true) :
    ((busyEdge c s).busy = true ∧ (busyEdge c s).done = s.done ∧ (busyEdge c s).errcode = s.errcode ∧
      (busyEdge c s).err = s.err) ∨
    ((busyEdge c s).busy = false ∧ (busyEdge c s).done = true ∧
      (busyEdge c s).err = errAfter s.err (busyEdge c s).errcode) := by
  obtain ⟨-, e⟩ | ⟨-, hend⟩ := busyEdge_inv c s hb
  · have hb' : (busyEdge c s).busy = true := by simpa [e, State.busy] using hb
    exact .inl ⟨hb', by simp [e]⟩
  rcases hend with ⟨-, -, e⟩ | ⟨-, e⟩ | ⟨-, e⟩ | ⟨-, e⟩ | ⟨-, e⟩ | ⟨-, e⟩ | ⟨-, e⟩ <;> rw [e]
  · exact .inl (by simp)
  · exact .inl (by simp)
  · exact .inl (by simp)
  all_goals exact .inr (by simp)

/-- Settles O43, by what the edge is: a reset and an acceptance clear DONE, an edge of a running command sets the flags
exactly when it ends the command, and an idle block keeps them. -/
theorem doneIsALevel : Obligations.DoneIsALevel := by
  intro c p s
  obtain ⟨hr, e⟩ | ⟨hr, hb, e⟩ | ⟨ha, e⟩ | ⟨hr, hb, hv, e⟩ := clockEdge_cases c p s <;> rw [e]
  · simp [hr]
  · have hna : ¬ Accepts p s := not_accepts_of_busy hb
    obtain ⟨hb', hdone, hcode, herr⟩ | ⟨hb', hdone, -⟩ := busyEdge_flags_cases c hb
    · simp +contextual [hr, hna, hb', hdone, hcode, herr]
    · simp [hr, hna, hb, hb', hdone]
  · simp [ha]
  · simp +contextual [hr, hb, hv, Accepts]

/-! ### ERR and ERRCODE -/

/-- ERR is sticky whatever code a command ends with (R236). -/
@[simp] theorem errAfter_true (code : ErrCode) : errAfter true code = true := by simp [errAfter]

theorem err_busyEdge {c : Config} {s : State} (hb : s.busy = true) (h : s.err = true) : (busyEdge c s).err = true := by
  obtain ⟨-, -, -, herr⟩ | ⟨-, -, herr⟩ := busyEdge_flags_cases c hb <;> simp [herr, h]

theorem err_clockEdge {c : Config} {p : InPorts} {s : State} (h : s.err = true) (hr : p.rst = false) :
    (clockEdge c p s).err = true := by
  obtain ⟨hr', -⟩ | ⟨-, hb, e⟩ | ⟨-, e⟩ | ⟨-, -, -, e⟩ := clockEdge_cases c p s
  · simp [hr] at hr'
  · rw [e]; exact err_busyEdge hb h
  · rw [e, acceptEdge_err, h]
  · rw [e, h]

/-- ERRCODE after a command is its own code, and ERR collects it (R192, R223). -/
theorem exec_errcode_err (i : Instr) (s : State) :
    ∃ t, exec i s = .next t ∧ t.errcode = (if i = .gen ∧ s.keyed = false then .notKeyed else .none) ∧
      t.err = errAfter s.err t.errcode := by
  cases i with
  | gen =>
    refine ⟨_, exec_gen s, ?_⟩
    cases hk : s.keyed with
    | false => simp [runGen_notKeyed _ s hk]
    | true => simp [runGen_keyed _ s hk]
  | nop | init | stepM | stepF => exact ⟨_, rfl, rfl, rfl⟩

/-- The same for an accepted command, an illegal word included (R222). -/
theorem err_of_transact {p : Command} {s t : State} (h : transact p s = .next t) : t.err = errAfter s.err t.errcode := by
  cases hd : decode p with
  | error e =>
    rw [transact_error p s e hd] at h
    cases h; rfl
  | ok i =>
    obtain ⟨u, hu, -, herr⟩ := exec_errcode_err i (s.sample p)
    rw [transact_ok p s i hd, hu] at h
    cases h; exact herr

theorem err_step {s t : State} (h : s.err = true) (hr : ∀ p rest, s.inputs = p :: rest → p.rst = false)
    (ht : step s = .next t) : t.err = true := by
  have hrun : (finishRunning Config.build s).err = true :=
    finishRunning_keeps (fun x => x.err = true) Config.build (fun _ => err_busyEdge) s h
  obtain ⟨-, e⟩ | ⟨p, rest, hi, ⟨hr', -⟩ | ⟨-, -, e⟩ | ⟨-, -, -, e⟩ | ⟨-, -, -, e⟩⟩ := step_cases s
  case inr.inl => simp [hr p rest hi] at hr'
  all_goals rw [e] at ht
  · cases ht; split
    · exact hrun
    · exact h
  · cases ht; exact hrun
  · rw [err_of_transact ht]; simp [h]
  · cases ht; exact h

/-- Settles O36: every completion collects its code in ERR, and nothing else but reset writes it. -/
theorem errIsStickyUntilReset : Obligations.ErrIsStickyUntilReset := by
  refine ⟨fun c p s => err_clockEdge, fun s t => err_step, fun i s => ?_, fun c p s hr => ?_⟩
  · obtain ⟨t, ht, hcode, herr⟩ := exec_errcode_err i s
    exact ⟨t, ht, hcode, by rw [herr]; cases t.errcode <;> rfl⟩
  · rw [clockEdge_of_rst hr, State.resetBlock_err]

/-! ### GEN with KEYED = 0 -/

@[simp] theorem runGen_clears_keyed (c : Config) (s : State) : (runGen c s).keyed = false := by
  cases hk : s.keyed with
  | false => simp [runGen_notKeyed c s hk, hk]
  | true => simp [runGen_keyed c s hk]

/-- No command but INIT sets KEYED (R31). -/
theorem exec_keeps_not_keyed {i : Instr} {s t : State} (hi : ∀ key frame, i ≠ .init key frame) (hk : s.keyed = false)
    (ht : exec i s = .next t) : t.keyed = false := by
  cases i with
  | init key frame => exact absurd rfl (hi key frame)
  | gen => cases ht; exact runGen_clears_keyed _ s
  | nop | stepM | stepF => cases ht; exact hk

/-- Settles O19: a refused GEN is the completion with NOT_KEYED, and every GEN leaves KEYED = 0. -/
theorem genWithoutKeyIsRefused : Obligations.GenWithoutKeyIsRefused := by
  refine ⟨fun s hk => ⟨s.complete .notKeyed, ?_, ?_⟩, rfl, fun s t ht => ?_, fun i s t => exec_keeps_not_keyed⟩
  · rw [exec_gen, runGen_notKeyed _ s hk]
  · exact ⟨rfl, rfl, errAfter_notKeyed s.err, rfl, rfl, rfl, hk, rfl, rfl, rfl⟩
  · cases ht; exact runGen_clears_keyed _ s

/-! ### A command that fails -/

/-- The eleven illegal words end with ILLEGAL_CMD, whatever KEYED holds (R222, R226). -/
theorem commandCode_of_illegal {w : CmdWord}
    (h : w ∈ [0x4#4, 0x5#4, 0x6#4, 0x8#4, 0x9#4, 0xA#4, 0xB#4, 0xC#4, 0xD#4, 0xE#4, 0xF#4]) (keyed : Bool) :
    commandCode w keyed = .illegalCmd := by
  obtain ⟨e, he⟩ := (exists_decode_error_iff ⟨w, 0#64, 0#22⟩).2 h
  have hw : decodeWord w = .error e := (decode_error_iff _ e).1 he
  simp only [commandCode, hw]

/-- The completion forgets the word that was sampled (log entry 3), so of a failed command nothing sampled is left. -/
theorem complete_sample_of_fails {s : State} {p : Command} (h : commandCode p.cmd s.keyed ≠ .none) (code : ErrCode) :
    (s.sample p).complete code = s.complete code := by
  rw [State.sample_of_fails s p h]; rfl

/-- A command that fails is its completion, as one transaction. -/
theorem transact_of_fails {p : Command} {s : State} (h : commandCode p.cmd s.keyed ≠ .none) :
    transact p s = .next (s.complete (commandCode p.cmd s.keyed)) := by
  rw [← complete_sample_of_fails h]
  cases hd : decode p with
  | error e =>
    have hw := (decode_error_iff p e).1 hd
    rw [transact_error p s e hd]
    simp only [runIllegal, commandCode, hw]
  | ok i =>
    obtain ⟨rfl, hk⟩ := not_not.1 (mt (commandCode_eq_none_iff_of_decode hd s.keyed).2 h)
    have hw := ((decode_ok_iff_encode p .gen).1 hd).1
    rw [transact_ok p s .gen hd, exec_gen, runGen_notKeyed _ (s.sample p) hk, hw, hk]
    rfl

/-- A command that fails is its completion, by its two clock edges: it has one edge, in PHASE UNIT (R262). -/
theorem runEdges_of_fails {c : Config} {p q : InPorts} {s : State} (ha : Accepts p s) (hq : q.rst = false)
    (h : commandCode p.offer.cmd s.keyed ≠ .none) :
    runEdges c [p, q] s = s.complete (commandCode p.offer.cmd s.keyed) := by
  have hunit : firstPhase p.offer.cmd s.keyed = .unit :=
    (firstPhase_unit_iff _ _).2 (.inr ((commandCode_ne_none_iff_word _ _).1 h).symm)
  rw [runEdges_of_accepts ha, (runs_acceptEdge_unit c hunit).runEdges_eq rfl (by simpa using hq),
    complete_sample_of_fails h]

/-- Completion with an error, in an idle state, writes DONE, ERRCODE and ERR and nothing else (R227). -/
theorem complete_error_of_idle {s : State} (hb : s.busy = false) (hcnt : s.cnt = 0#8) (hcmd : s.cmdL = 0#4)
    {code : ErrCode} (h : code ≠ .none) : s.complete code = { s with done := true, errcode := code, err := true } := by
  have hp : s.phase = .idle := s.busy_eq_false_iff.1 hb
  have herr : errAfter s.err code = true := by simp [errAfter, h]
  rw [State.complete, State.enter, herr, ← hp, ← hcnt, ← hcmd]

/-- Settles O50: at both levels a failed command is its completion with an error. -/
theorem failedCommandChangesOnlyErrorFlags : Obligations.FailedCommandChangesOnlyErrorFlags := by
  intro c p q s ha hq hcnt hcmd
  have hb : s.busy = false := ha.2.2
  have hfails {code : ErrCode} (hcode : commandCode p.offer.cmd s.keyed = code) (hne : code ≠ .none) :
      transact p.offer s = .next { s with done := true, errcode := code, err := true } ∧
      runEdges c [p, q] s = { s with done := true, errcode := code, err := true } := by
    subst hcode
    rw [transact_of_fails hne, runEdges_of_fails ha hq hne, complete_error_of_idle hb hcnt hcmd hne]
    exact ⟨rfl, rfl⟩
  exact ⟨fun hw => hfails (commandCode_of_illegal hw s.keyed) nofun,
    fun hw hk => hfails (by rw [hw, hk]; rfl) nofun⟩

/-- Settles O29: the transaction of an illegal word is its completion with ILLEGAL_CMD. -/
theorem illegalWordOnlyReportsError : Obligations.IllegalWordOnlyReportsError := by
  intro s p rest hi hr hb hv hw
  have hcode := commandCode_of_illegal hw s.keyed
  refine ⟨{ s with inputs := rest }.complete .illegalCmd, ?_, rfl, rfl, errAfter_illegalCmd s.err, rfl, rfl, rfl, rfl,
    rfl, rfl, rfl⟩
  rw [step_of_accepts ⟨hr, hv, hb⟩ hi, transact_of_fails (by simp [hcode]), hcode]

/-! ### A step with no offer -/

theorem step_of_no_inputs {s : State} (hb : s.busy = false) (hi : s.inputs = []) : step s = .next s := by
  simp [step, hostTransaction, hi, hb]

theorem step_of_no_offer {s : State} {p : InPorts} {rest : List InPorts} (hi : s.inputs = p :: rest)
    (hr : p.rst = false) (hb : s.busy = false) (hv : p.cmdValid = false) :
    step s = .next { s with inputs := rest } := by
  simp [step, hostTransaction, hi, hr, hb, hv]

/-- A reset entry resets the block, whatever else it holds and whatever runs (R226, R250). -/
theorem step_of_rst {s : State} {p : InPorts} {rest : List InPorts} (hi : s.inputs = p :: rest) (hr : p.rst = true) :
    step s = .next { s with inputs := rest }.resetBlock := by
  simp [step, hostTransaction, hi, hr]

/-- Settles O30: one rule for each kind of entry that is no offer. -/
theorem stepIdlesOrResets : Obligations.StepIdlesOrResets :=
  fun _ => ⟨step_of_no_inputs, fun _ _ => step_of_no_offer, fun _ _ => step_of_rst⟩

end Sys2Proof.Machine
end

