-- ==== Sys2Proof/Proofs/ResetAndHazards.lean ====
section
/-! Reset and hazards (70_reset_and_hazards R250 to R273): the reset edge (O38), the hidden state between commands (O37),
the sequence that follows reset (O33), and a GEN after a GEN (O21). -/

namespace Sys2Proof.Machine

/-! ### The reset edge -/

/-- STATUS of a block just reset (R250). -/
theorem status_resetBlock (s : State) : s.resetBlock.status = 0#8 := by
  have hview : s.resetBlock.status = State.reset.status := rfl
  rw [hview]
  decide

/-- Holding reset changes nothing more (R252). -/
theorem runEdges_resetBlock (c : Config) {ports : List InPorts} (h : ∀ q ∈ ports, q.rst = true) (s : State) :
    runEdges c ports s.resetBlock = s.resetBlock := by
  induction ports with
  | nil => rfl
  | cons q ports ih =>
    obtain ⟨hq, hports⟩ := List.forall_mem_cons.1 h
    have hidem : clockEdge c q s.resetBlock = s.resetBlock := clockEdge_of_rst hq c s.resetBlock
    rw [runEdges_cons, hidem, ih hports]

/-- Settles O38: the edge is `resetBlock`, whatever the state before it. -/
theorem resetEdgeResetsEverything : Obligations.ResetEdgeResetsEverything := by
  refine ⟨fun c p s hr => ?_, fun c p hr => ?_, fun c p ports s hr hports => ?_⟩
  · rw [clockEdge_of_rst hr]
    exact ⟨rfl, rfl, rfl, rfl, rfl, rfl, rfl, rfl, rfl, status_resetBlock s, rfl, rfl, rfl, rfl⟩
  · rw [clockEdge_of_rst hr, status_resetBlock]
  · rw [runEdges_cons, clockEdge_of_rst hr, runEdges_resetBlock c hports]

/-! ### The hidden state between commands -/

/-- A GEN, refused or not, leaves the sequencer idle and the latches and the host's list as they are. -/
theorem runGen_hidden (c : Config) (s : State) :
    (runGen c s).phase = .idle ∧ (runGen c s).cnt = 0#8 ∧ (runGen c s).cmdL = 0#4 ∧ (runGen c s).inputs = s.inputs ∧
      (runGen c s).keyL = s.keyL ∧ (runGen c s).frameL = s.frameL := by
  cases hk : s.keyed with
  | false => simp [runGen_notKeyed c s hk]
  | true => simp [runGen_keyed c s hk]

/-- Settles O37: every command ends in the completion, and INIT alone writes the latches. -/
theorem commandsLeaveHiddenStateIdle : Obligations.CommandsLeaveHiddenStateIdle := by
  intro i s
  cases i with
  | init key frame =>
    refine ⟨_, exec_init key frame s, rfl, rfl, rfl, rfl, fun _ _ h => ?_, fun h => absurd rfl (h key frame)⟩
    cases h; exact ⟨rfl, rfl⟩
  | gen =>
    obtain ⟨hphase, hcnt, hcmd, hinputs, hlatches⟩ := runGen_hidden Config.build s
    exact ⟨_, exec_gen s, hphase, hcnt, hcmd, hinputs, nofun, fun _ => hlatches⟩
  | nop | stepM | stepF => exact ⟨_, rfl, rfl, rfl, rfl, rfl, nofun, fun _ => ⟨rfl, rfl⟩⟩

/-! ### A program that follows reset -/

/-- A host that resets the block and then runs a program gets, from any state, the program executed from the reset state
(R254). -/
theorem run_reset_programInputs (prog : List Command) (s : State) :
    Host.Core.run Sys2Proof.core (prog.length + 1)
        ({ s with inputs := .resetting :: programInputs prog } : State) = execProgram prog .reset := by
  have hreset : step { s with inputs := .resetting :: programInputs prog } =
      .next { State.reset with inputs := programInputs prog } := step_of_rst rfl rfl
  exact (run_next prog.length _ _ hreset).trans (run_programInputs prog .reset rfl)

/-- INIT then GEN: INIT overwrites what its acceptance sampled, and GEN runs in the state that has sampled its word. -/
theorem execProgram_init_gen (key : Key) (frame : Frame) (s : State) :
    execProgram [encode (.init key frame), encode .gen] s =
      exec .gen ((runInit Config.build key frame s).sample (encode .gen)) := by
  have hinit : transact (encode (.init key frame)) s = .next (runInit Config.build key frame s) := by
    rw [transact_ok _ s _ (decode_encode _), exec_init]
    simp only [runInit_eq, State.sample]
  have hgen := transact_ok _ (runInit Config.build key frame s) _ (decode_encode .gen)
  rw [execProgram_cons_of_next hinit, execProgram_cons_of_next (hgen.trans (exec_gen _)), exec_gen]
  rfl

/-- Settles O33: after reset the session is GEN's keystreams of the CipherState that INIT loaded, and a GEN without INIT
is the completion with NOT_KEYED. -/
theorem bootSequenceGivesKeystream : Obligations.BootSequenceGivesKeystream := by
  intro s key frame
  constructor
  · have hx : ((runInit Config.build key frame .reset).sample (encode .gen)).cipher = initCipher Config.build key frame :=
      rfl
    obtain ⟨t, ht, hbits, -, hkeyed, hdone, hcode, herr, hbusy⟩ :=
      genEmitsBothKeystreams.2 ((runInit Config.build key frame .reset).sample (encode .gen)) rfl
    rw [hx] at hbits
    refine ⟨t, (run_reset_programInputs _ s).trans ((execProgram_init_gen key frame .reset).trans ht), hbits, ?_⟩
    have hnoErr : t.err = false := herr
    rw [State.status, hkeyed, hdone, hcode, hnoErr, hbusy]
    decide
  · have hrefused : transact (encode .gen) .reset = .next (State.reset.complete .notKeyed) :=
      transact_of_fails (by decide)
    exact ⟨_, (run_reset_programInputs [encode .gen] s).trans (execProgram_cons_of_next hrefused []), rfl, rfl, rfl⟩

/-! ### A GEN after a GEN -/

/-- KEYED is 0, and the two buffers hold these keystreams. -/
def State.Consumed (dl ul : Keystream) (s : State) : Prop := s.keyed = false ∧ s.ksDl = dl ∧ s.ksUl = ul

/-- With KEYED = 0 no command but INIT sets KEYED or writes a buffer (R24, R31). -/
theorem State.Consumed.after_exec {dl ul : Keystream} {s t : State} (h : s.Consumed dl ul) {i : Instr}
    (hi : ∀ key frame, i ≠ .init key frame) (ht : exec i s = .next t) : t.Consumed dl ul := by
  cases i with
  | init key frame => exact absurd rfl (hi key frame)
  | gen =>
    rw [exec_gen, runGen_notKeyed _ s h.1] at ht
    cases ht; exact h
  | nop | stepM | stepF => cases ht; exact h

/-- The same for an accepted command, an illegal word included (R222). -/
theorem State.Consumed.after_transact {dl ul : Keystream} {s t : State} (h : s.Consumed dl ul) {p : Command}
    (hp : p.cmd ≠ 0x1#4) (ht : transact p s = .next t) : t.Consumed dl ul := by
  cases hd : decode p with
  | error e =>
    rw [transact_error p s e hd] at ht
    cases ht; exact h
  | ok i =>
    obtain ⟨hcmd, -⟩ := (decode_ok_iff_encode p i).1 hd
    have hi : ∀ key frame, i ≠ .init key frame := by
      rintro key frame rfl
      exact hp hcmd
    rw [transact_ok p s i hd] at ht
    exact State.Consumed.after_exec (s := s.sample p) h hi ht

/-- A program without INIT keeps KEYED = 0 and the buffers. -/
theorem State.Consumed.after_execProgram {dl ul : Keystream} {prog : List Command} (hprog : ∀ p ∈ prog, p.cmd ≠ 0x1#4)
    {s : State} (h : s.Consumed dl ul) : ∃ t, execProgram prog s = .next t ∧ t.Consumed dl ul := by
  induction prog generalizing s with
  | nil => exact ⟨s, rfl, h⟩
  | cons p rest ih =>
    obtain ⟨hp, hrest⟩ := List.forall_mem_cons.1 hprog
    have ht := transact_eq_runCommand p s
    rw [execProgram_cons_of_next ht]
    exact ih hrest (h.after_transact hp ht)

/-- Settles O21: the first GEN consumes the CipherState, the commands between keep it consumed, and so the last GEN is
refused. -/
theorem secondGenKeepsFirstKeystream : Obligations.SecondGenKeepsFirstKeystream := by
  intro s between hbetween
  have hkeyed := runGen_clears_keyed Config.build s
  obtain ⟨u, hu, huk, hdl, hul⟩ := State.Consumed.after_execProgram hbetween ⟨hkeyed, rfl, rfl⟩
  obtain ⟨v, hv, -, hcode, herr, hcipher, hvdl, hvul, hvk, -⟩ := genWithoutKeyIsRefused.1 u huk
  exact ⟨_, u, v, exec_gen s, hu, hv, hkeyed, huk, hdl, hul, hcode, herr, hvk, hvdl.trans hdl, hvul.trans hul, hcipher⟩

end Sys2Proof.Machine
end
